-- ==== Sys2Proof/Word.lean ====
section
/-! DEFINITION. The widths in which the spec holds quantities (00_scope.md R8, 10_state.md R20).

Only what the spec treats as bits is a bit vector: bytes of the byte source and of FRAME, the 16-bit and 32-bit
registers, the command word. Counts and indices are natural numbers, concentrations are rationals (R12). -/

namespace Sys2Proof

/-- A byte (R8): 8 bits, bit 7 the most significant. -/
abbrev Byte := BitVec 8

/-- A 16-bit register or wire field (R20, R100). -/
abbrev Half := BitVec 16

/-- A 32-bit register: OPERAND, RESULT, the AQI registers (R20, R38, R39; AQI_W = 32, R7). -/
abbrev Word := BitVec 32

end Sys2Proof
end

