-- ==== Sys2Proof/Syntax.lean ====
section
/-! DEFINITION. What can be said to the machine: the nine commands (30_encoding.md R104), the fields of a command word
(R96), and the actions of the three agents (00_scope.md R13). -/

namespace Sys2Proof

/-- `ProtocolKind` (R92). -/
inductive ProtocolKind where
  | plantowerPM
  | cubicPM1006
  deriving DecidableEq, Repr

/-- The pollutant operand of an `AQI.*` command (R93). -/
inductive Pollutant where
  | pm25
  | pm10
  deriving DecidableEq, Repr

/-- The standard operand of an `AQI.*` command (R94). -/
inductive Standard where
  | us
  | china
  deriving DecidableEq, Repr

/-- The operation a command belongs to: the `OP` field of its word by name (R97). -/
inductive Op where
  | sync
  | validate
  | decode
  | aqi
  | read
  deriving DecidableEq, Repr

/-- The instructions: one constructor per row of the opcode map (R104). Every operand of a command is fixed by its word
(92_eei_decisions.md D3), so no constructor carries one; the concentration of `AQI.*` travels in OPERAND (R96, R103). -/
inductive Instr where
  /-- `SYNC`, word 0x01 (R130). -/
  | sync
  /-- `VALIDATE.P`, word 0x02 (R150). -/
  | validateP
  /-- `VALIDATE.C`, word 0x0A (R151). -/
  | validateC
  /-- `DECODE`, word 0x03 (R180). -/
  | decode
  /-- `AQI.PM25.US`, word 0x04 (R215). -/
  | aqiPm25Us
  /-- `AQI.PM10.US`, word 0x14 (R216). -/
  | aqiPm10Us
  /-- `AQI.PM25.CN`, word 0x24 (R217). -/
  | aqiPm25Cn
  /-- `AQI.PM10.CN`, word 0x34 (R218). -/
  | aqiPm10Cn
  /-- `READ`, word 0x05 (R240). -/
  | read
  deriving DecidableEq, Repr

/-- The operation of a command (R104). -/
def Instr.op : Instr → Op
  | .sync => .sync
  | .validateP => .validate
  | .validateC => .validate
  | .decode => .decode
  | .aqiPm25Us => .aqi
  | .aqiPm10Us => .aqi
  | .aqiPm25Cn => .aqi
  | .aqiPm10Cn => .aqi
  | .read => .read

/-- The `ProtocolKind` operand a command names, if it names one (R96, R103). -/
def Instr.protocolOperand : Instr → Option ProtocolKind
  | .validateP => some .plantowerPM
  | .validateC => some .cubicPM1006
  | .sync => none
  | .decode => none
  | .aqiPm25Us => none
  | .aqiPm10Us => none
  | .aqiPm25Cn => none
  | .aqiPm10Cn => none
  | .read => none

/-- The (pollutant, standard) operands a command names, if it names them (R96, R103). -/
def Instr.pairOperand : Instr → Option (Pollutant × Standard)
  | .aqiPm25Us => some (.pm25, .us)
  | .aqiPm10Us => some (.pm10, .us)
  | .aqiPm25Cn => some (.pm25, .china)
  | .aqiPm10Cn => some (.pm10, .china)
  | .sync => none
  | .validateP => none
  | .validateC => none
  | .decode => none
  | .read => none

/-- The fields of a command word, format `CMD8` (R96), most significant first. -/
structure CmdWord where
  /-- bits 7:6 -/
  rsvd : BitVec 2
  /-- bit 5 -/
  std : BitVec 1
  /-- bit 4 -/
  pol : BitVec 1
  /-- bit 3 -/
  p : BitVec 1
  /-- bits 2:0 -/
  op : BitVec 3
  deriving DecidableEq, Repr

/-- One action of one agent (R13). An execution is an interleaving of such actions, each atomic (20_memory.md R77); which
agent moves next is the list of actions that State holds as `agenda`. -/
inductive AgentAction where
  /-- The core takes its enabled step, if it has one (10_state.md R29). -/
  | core
  /-- The transport appends a byte at the tail of the byte source (20_memory.md R72). -/
  | arrive (b : Byte)
  /-- The transport draws `short(k)` as its answer to the next read-exact (20_memory.md R71 (b)). -/
  | failRead (k : Nat)
  /-- Another consumer removes a byte from the byte source, which the system must not do (70_reset_and_hazards.md R307). -/
  | foreignPop
  /-- The host writes `v` to the register with index `idx` (10_state.md R35). -/
  | hostWrite (idx : Byte) (v : Word)
  /-- The host reads the register with index `idx` (10_state.md R35). -/
  | hostRead (idx : Byte)
  /-- The reset input `rst` is asserted (70_reset_and_hazards.md R300). -/
  | reset
  deriving DecidableEq, Repr

end Sys2Proof
end

