-- ==== Sys2Proof/Config.lean ====
section
/-! DEFINITION. What is fixed for the machine: the constants of 00_scope.md R6, the open parameters of R7, the breakpoint
ROM (43_aqi.md R203 to R207), and the values the spec leaves free. -/

namespace Sys2Proof.Config

/-- `MARK_P` (R6). -/
def markP : Byte := 0x42

/-- `MARK_C` (R6). -/
def markC : Byte := 0x16

/-- `HDR_P`, bytes 0 and 1 of a PlantowerPM frame (R6, R155). -/
def hdrP : List Byte := [0x42, 0x4D]

/-- `HDR_C`, bytes 0, 1 and 2 of a CubicPM1006 frame (R6, R156). -/
def hdrC : List Byte := [0x16, 0x11, 0x0B]

/-- `LEN_P` (R6, R154). -/
def lenP : Nat := 32

/-- `LEN_C` (R6, R154). -/
def lenC : Nat := 20

/-- `SYNC_BUDGET` (R6): the greatest number of bytes one attempt discards. The counter DCNT is 6 bits wide (R47). -/
def syncBudget : BitVec 6 := 32

/-- `SUM_END_P` (R6): the PlantowerPM checksum covers bytes [0..30). -/
def sumEndP : Nat := 30

/-- `OUT_OF_RANGE` (R6, R212). -/
def outOfRange : Nat := 99999

/-- One band of a breakpoint table (R203): concentrations in tenths of µg/m³, and the two scores. -/
structure Band where
  cl10 : Nat
  ch10 : Nat
  al : Nat
  ah : Nat
  deriving DecidableEq, Repr

/-- Table 0, PM2.5-US (R204). -/
def tablePm25Us : List Band :=
  [ ⟨0, 121, 0, 50⟩, ⟨121, 355, 51, 100⟩, ⟨355, 555, 101, 150⟩, ⟨555, 1505, 151, 200⟩,
    ⟨1505, 2505, 201, 300⟩, ⟨2505, 3505, 301, 400⟩, ⟨3505, 5005, 401, 500⟩ ]

/-- Table 1, PM10-US (R205). -/
def tablePm10Us : List Band :=
  [ ⟨0, 550, 0, 50⟩, ⟨550, 1550, 51, 100⟩, ⟨1550, 2550, 101, 150⟩, ⟨2550, 3550, 151, 200⟩,
    ⟨3550, 4250, 201, 300⟩, ⟨4250, 5050, 301, 400⟩, ⟨5050, 6050, 401, 500⟩ ]

/-- Table 2, PM2.5-China (R206). -/
def tablePm25Cn : List Band :=
  [ ⟨0, 350, 0, 50⟩, ⟨350, 750, 51, 100⟩, ⟨750, 1150, 101, 150⟩, ⟨1150, 1500, 151, 200⟩,
    ⟨1500, 2500, 201, 300⟩, ⟨2500, 3500, 301, 400⟩, ⟨3500, 5000, 401, 500⟩ ]

/-- Table 3, PM10-China (R207). -/
def tablePm10Cn : List Band :=
  [ ⟨0, 500, 0, 50⟩, ⟨500, 1500, 51, 100⟩, ⟨1500, 2500, 101, 150⟩, ⟨2500, 3500, 151, 200⟩,
    ⟨3500, 4200, 201, 300⟩, ⟨4200, 5000, 301, 400⟩, ⟨5000, 6000, 401, 500⟩ ]

/-- `AQI_TABLE`, the breakpoint ROM (R7, R44), by table number (R95). -/
def aqiTable : Nat → List Band
  | 0 => tablePm25Us
  | 1 => tablePm10Us
  | 2 => tablePm25Cn
  | 3 => tablePm10Cn
  | _ => []

/-- `SRC_MAY_FAIL`, OPEN (R7, R71): whether a read-exact can fail after the availability check passed. No value is
chosen: every statement holds for both. -/
opaque srcMayFail : Bool

/-- The value the `n`-th host read of a register other than STATUS returns while BUSY = 1: unspecified, a draw
(60_exceptions.md R284, 93_implementation_defined.md U3). No value is chosen. -/
opaque freeHostRead : Nat → Word

end Sys2Proof.Config
end

