-- ==== Sys2Proof/WellFormed.lean ====
section
/-! DEFINITION. What is well formed: a command word's fields (30_encoding.md R96, R106), an instruction's operands (R103),
a breakpoint table (43_aqi.md R203), an agent's action (20_memory.md R71, 10_state.md R35). Each check has an ill-formed
term that it refuses in Sys2Proof/Tests/Slice0.lean. -/

namespace Sys2Proof

/-- Bits 7:6 are 0 (R96). -/
def CmdWord.reservedClear (c : CmdWord) : Bool := c.rsvd == 0

/-- `OP` is one of the five defined operations (R97). -/
def CmdWord.opDefined (c : CmdWord) : Bool := 1 ≤ c.op.toNat && c.op.toNat ≤ 5

/-- `P` is 0 unless `OP` is `VALIDATE` (R96). -/
def CmdWord.protocolInPlace (c : CmdWord) : Bool := c.op.toNat == 2 || c.p == 0

/-- `POL` and `STD` are 0 unless `OP` is `AQI` (R96). -/
def CmdWord.pairInPlace (c : CmdWord) : Bool := c.op.toNat == 4 || (c.pol == 0 && c.std == 0)

/-- A legal command word, by its fields (R106). -/
def CmdWord.wellFormed (c : CmdWord) : Bool :=
  c.reservedClear && c.opDefined && c.protocolInPlace && c.pairInPlace

/-- An instruction names a protocol exactly when it is a `VALIDATE` and a (pollutant, standard) pair exactly when it is an
`AQI` (R103). Commands are closed (R104), so every term of `Instr` passes. -/
def Instr.wellFormed (i : Instr) : Bool :=
  (i.protocolOperand.isSome == (i.op == .validate)) && (i.pairOperand.isSome == (i.op == .aqi))

/-- `conc_high > conc_low` and `aqi_high > aqi_low` (R203). -/
def Config.Band.wellFormed (b : Config.Band) : Bool := decide (b.cl10 < b.ch10) && decide (b.al < b.ah)

/-- Bands well formed, contiguous, each starting above the score the one before it ends with (R203, R220). -/
def Config.bandsJoin : List Config.Band → Bool
  | [] => true
  | [b] => b.wellFormed
  | b :: c :: rest => b.wellFormed && b.ch10 == c.cl10 && decide (b.ah < c.al) && Config.bandsJoin (c :: rest)

/-- A breakpoint table: seven bands (`NBAND`, R6) "covering concentration ranges contiguously from 0 upward" (R203). -/
def Config.tableWellFormed (t : List Config.Band) : Bool :=
  t.length == 7 && (t.head?.map (·.cl10)) == some 0 && Config.bandsJoin t

/-- The actions the spec describes: a short read delivers fewer bytes than the longest frame (R71), a value written to CMD
is an 8-bit word (R36), and only the core removes bytes from the byte source (R73, R307). -/
def AgentAction.wellFormed : AgentAction → Bool
  | .core => true
  | .arrive _ => true
  | .failRead k => decide (k < Config.lenP)
  | .foreignPop => false
  | .hostWrite idx v => idx != 0x00 || decide (v.toNat < 256)
  | .hostRead _ => true
  | .reset => true

end Sys2Proof
end

