-- ==== Sys2Proof/Decode.lean ====
section
/-! DEFINITION. The command word: decoding, total on any byte and rejecting by name (30_encoding.md R96, R97, R104, R106,
R107), and the encoder written from the same tables (R92 to R97, R104). -/

namespace Sys2Proof

/-- Why a word is no command (R107). Every one of these is reported as `ERR_ILLEGAL` when the word is written to CMD
(60_exceptions.md R268). -/
inductive Reject where
  /-- a reserved bit 7:6 is set -/
  | reservedBits
  /-- `OP` is 0, 6 or 7 -/
  | reservedOp
  /-- `P` is set and `OP` is not `VALIDATE` -/
  | strayProtocol
  /-- `POL` or `STD` is set and `OP` is not `AQI` -/
  | strayPair
  /-- there is no byte to decode -/
  | noWord
  deriving DecidableEq, Repr

/-- The fields of a command word (R96). -/
def splitWord (w : Byte) : CmdWord :=
  { rsvd := w.extractLsb' 6 2, std := w.extractLsb' 5 1, pol := w.extractLsb' 4 1,
    p := w.extractLsb' 3 1, op := w.extractLsb' 0 3 }

/-- The command word with the given fields (R96). -/
def joinWord (c : CmdWord) : Byte := c.rsvd ++ c.std ++ c.pol ++ c.p ++ c.op

/-- A command with no operand in its word: all three operand bits must be 0 (R96, R107). -/
def decodePlain (c : CmdWord) (i : Instr) : Except Reject Instr :=
  if c.p ≠ 0 then .error .strayProtocol
  else if c.pol ≠ 0 ∨ c.std ≠ 0 then .error .strayPair
  else .ok i

/-- `OP` = `VALIDATE`: `P` names the protocol (R92, R96). -/
def decodeValidate (c : CmdWord) : Except Reject Instr :=
  if c.pol ≠ 0 ∨ c.std ≠ 0 then .error .strayPair
  else if c.p = 0 then .ok .validateP
  else .ok .validateC

/-- `OP` = `AQI`: `POL` and `STD` name the table (R93, R94, R96). -/
def decodeAqi (c : CmdWord) : Except Reject Instr :=
  if c.p ≠ 0 then .error .strayProtocol
  else if c.std = 0 then
    if c.pol = 0 then .ok .aqiPm25Us else .ok .aqiPm10Us
  else
    if c.pol = 0 then .ok .aqiPm25Cn else .ok .aqiPm10Cn

/-- The command whose fields are `c` (R97, R104). -/
def decodeFields (c : CmdWord) : Except Reject Instr :=
  if c.rsvd ≠ 0 then .error .reservedBits
  else match c.op.toNat with
    | 1 => decodePlain c .sync
    | 2 => decodeValidate c
    | 3 => decodePlain c .decode
    | 4 => decodeAqi c
    | 5 => decodePlain c .read
    | _ => .error .reservedOp

/-- The command a word stands for: total on all 256 words (R106). -/
def decodeWord (w : Byte) : Except Reject Instr := decodeFields (splitWord w)

/-- `legal(w)` (R106). -/
def legalWord (w : Byte) : Bool :=
  match decodeWord w with
  | .ok _ => true
  | .error _ => false

/-- The decoder over bytes: a command is one byte long (R96), the rest is left over. -/
def decode : List Byte → Except Reject (Instr × List Byte)
  | [] => .error .noWord
  | w :: rest =>
    match decodeWord w with
    | .ok i => .ok (i, rest)
    | .error r => .error r

/-- The code of an operation (R97). -/
def opCode : Op → BitVec 3
  | .sync => 1
  | .validate => 2
  | .decode => 3
  | .aqi => 4
  | .read => 5

/-- The code of a protocol (R92). -/
def protocolCode : ProtocolKind → BitVec 1
  | .plantowerPM => 0
  | .cubicPM1006 => 1

/-- The code of a pollutant (R93). -/
def pollutantCode : Pollutant → BitVec 1
  | .pm25 => 0
  | .pm10 => 1

/-- The code of a standard (R94). -/
def standardCode : Standard → BitVec 1
  | .us => 0
  | .china => 1

/-- The fields of a command's word: its operation, its operands where it names them, 0 elsewhere (R96). -/
def encodeFields (i : Instr) : CmdWord :=
  { rsvd := 0
    std := (i.pairOperand.map fun q => standardCode q.2).getD 0
    pol := (i.pairOperand.map fun q => pollutantCode q.1).getD 0
    p := (i.protocolOperand.map protocolCode).getD 0
    op := opCode i.op }

/-- The word of a command (R96, R104). -/
def encodeWord (i : Instr) : Byte := joinWord (encodeFields i)

/-- The bytes of a command (R96: one length, 8 bits). -/
def encode (i : Instr) : List Byte := [encodeWord i]

/-- The bytes of an instruction of `n` bytes whose bits are `w`, the first byte in bits 7:0. -/
def layOut : Nat → Nat → List Byte
  | 0, _ => []
  | n + 1, w => BitVec.ofNat 8 w :: layOut n (w / 256)

/-- The instruction the decoder reads from an instruction whose bits are `w`, when those bits are one whole instruction. -/
def decodeTableWord (nbits w : Nat) : Option Instr :=
  match decode (layOut (nbits / 8) w) with
  | .ok (i, []) => some i
  | .ok (_, _ :: _) => none
  | .error _ => none

end Sys2Proof
end

