-- ==== Sys2Proof/Machine/State.lean ====
section
/-! DEFINITION. Every piece of state the spec gives the machine, as plain data, and the machine right after reset.

Core state is 10_state.md R20 to R48; the byte source is the transport's (20_memory.md R60); `readDraw`, `agenda`,
`readData` and `drawCount` are the model's own (see each field, and notes/assumptions/1.md to 5.md). -/

namespace Sys2Proof.Machine

/-- `PHASE`, the sequencer (R28): the block's program counter. -/
inductive Phase where
  /-- 0: the core waits for the host to write CMD -/
  | idle
  /-- 1: one iteration of the synchronizer -/
  | scan
  /-- 2: the validator's availability check -/
  | avail
  /-- 3: the validator's exact read -/
  | xfer
  /-- 4: header check and checksum -/
  | check
  /-- 5: field extraction -/
  | dec
  /-- 6: the four AQI conversions of the Reading -/
  | conv
  /-- 7: the one conversion of a standalone `AQI.*` command -/
  | aqi1
  deriving DecidableEq, Repr

/-- The error outcomes a command can end with (60_exceptions.md R260). -/
inductive ErrorCause where
  | noStartByte
  | starved
  | incomplete
  | shortRead
  | badHeader
  | badChecksum
  | errSeq
  | errIllegal
  deriving DecidableEq, Repr

/-- The frame buffer as memory: (byte index, byte) pairs, indices strictly rising, no entry equal to what an unlisted
index reads as (R43, R61; the canonical form is `Memory.wf` in Machine/Ops.lean). -/
abbrev Memory := List Host.Cell

/-- The 19 Reading registers `x[0]` to `x[18]`, in register order (R20). -/
structure Reading where
  /-- `x[0]` -/
  frameLen : Half
  /-- `x[1]` -/
  pm1Std : Half
  /-- `x[2]` -/
  pm25Std : Half
  /-- `x[3]` -/
  pm10Std : Half
  /-- `x[4]` -/
  pm1Env : Half
  /-- `x[5]` -/
  pm25Env : Half
  /-- `x[6]` -/
  pm10Env : Half
  /-- `x[7]` -/
  cnt03 : Half
  /-- `x[8]` -/
  cnt05 : Half
  /-- `x[9]` -/
  cnt10 : Half
  /-- `x[10]` -/
  cnt25 : Half
  /-- `x[11]` -/
  cnt50 : Half
  /-- `x[12]` -/
  cnt100 : Half
  /-- `x[13]`, opaque (R23) -/
  rsvd : Half
  /-- `x[14]`, diagnostic only (R24) -/
  checksum : Half
  /-- `x[15]` -/
  aqiPm25Us : Word
  /-- `x[16]` -/
  aqiPm10Us : Word
  /-- `x[17]` -/
  aqiPm25Cn : Word
  /-- `x[18]` -/
  aqiPm10Cn : Word
  deriving DecidableEq, Repr

/-- The Reading registers after reset (70_reset_and_hazards.md R301). -/
def Reading.zero : Reading :=
  { frameLen := 0, pm1Std := 0, pm25Std := 0, pm10Std := 0, pm1Env := 0, pm25Env := 0, pm10Env := 0,
    cnt03 := 0, cnt05 := 0, cnt10 := 0, cnt25 := 0, cnt50 := 0, cnt100 := 0, rsvd := 0, checksum := 0,
    aqiPm25Us := 0, aqiPm10Us := 0, aqiPm25Cn := 0, aqiPm10Cn := 0 }

/-- The machine's state. -/
structure State where
  /-- `x[0]` to `x[18]` (R20) -/
  reading : Reading
  /-- `PHASE` (R28) -/
  phase : Phase
  /-- `CMDL`, the command word in progress (R45) -/
  cmdl : Byte
  /-- `DONE` (R33) -/
  done : Bool
  /-- `ERR` (R33, R260) -/
  err : BitVec 4
  /-- `PVALID` (R30) -/
  pvalid : Bool
  /-- `PROTO` (R30) -/
  proto : ProtocolKind
  /-- `FVALID` (R31) -/
  fvalid : Bool
  /-- `FPROTO` (R31) -/
  fproto : ProtocolKind
  /-- `RVALID` (R32) -/
  rvalid : Bool
  /-- `HAS_COUNTS` (R27) -/
  hasCounts : Bool
  /-- `OPERAND` (R38) -/
  operand : Word
  /-- `RESULT` (R39) -/
  result : Word
  /-- `DCNT` (R47) -/
  dcnt : BitVec 6
  /-- `ACC` (R48) -/
  acc : Half
  /-- `FRAME[0..31]` (R43) -/
  frame : Memory
  /-- `Q`, the byte source, head first; the transport's, not the core's (20_memory.md R60) -/
  source : List Byte
  /-- the transport's draw for the next read-exact: `some k` stands for `short(k)` (20_memory.md R71); the model's own -/
  readDraw : Option Nat
  /-- what the agents do next, first action first (00_scope.md R13, 20_memory.md R77); the model's own -/
  agenda : List AgentAction
  /-- the value the last host read returned (10_state.md R35); the model's own -/
  readData : Word
  /-- how many free values host reads have drawn (60_exceptions.md R284); the model's own -/
  drawCount : Nat
  deriving DecidableEq, Repr

/-- Why the machine stops with a fault. Each stands for a situation to which no rule of the spec applies and which no run
from reset reaches (Sys2Proof/Safety.lean, `Inv`). -/
inductive Fault where
  /-- Raised by a command's meaning at a PHASE its flow (R29) never takes. Safe: the machine stops where the spec has no
  such state. -/
  | phaseOutsideCommand
  /-- Raised by the core's turn when it is busy and CMDL holds no legal word (R45). Safe: no rule describes it. -/
  | noCommandLatched
  /-- Raised by the XFER step when fewer than `n` bytes are in the byte source: the precondition of `SrcReadExact(n)`
  (R71) is broken. Safe: no rule describes it. -/
  | readExactUnderflow
  deriving DecidableEq, Repr

/-- Why the model gives a step no meaning. -/
inductive Refusal where
  /-- Raised by exec's arm of an instruction that has no meaning yet; no arm does. Safe: nothing is claimed of it. -/
  | notModelled (mnemonic : String)
  /-- Raised by the action `foreignPop`: a second consumer of the byte source (70_reset_and_hazards.md R307,
  93_implementation_defined.md U2: "refuse"). Safe: the spec gives such a system no meaning. -/
  | foreignConsumer
  deriving DecidableEq, Repr

/-- The machine right after reset (70_reset_and_hazards.md R301): every register 0, PHASE = IDLE. The byte source is not the
core's and reset does not touch it (R302); here it is empty, no agent has anything pending, and nothing has been read. -/
def State.reset : State :=
  { reading := Reading.zero, phase := .idle, cmdl := 0x00, done := false, err := 0
    pvalid := false, proto := .plantowerPM, fvalid := false, fproto := .plantowerPM
    rvalid := false, hasCounts := false, operand := 0, result := 0, dcnt := 0, acc := 0, frame := []
    source := [], readDraw := none, agenda := [], readData := 0, drawCount := 0 }

end Sys2Proof.Machine
end

