-- ==== Sys2Proof/Machine/Ops.lean ====
section
/-! DEFINITION. The shared operations: the frame buffer as memory, the byte source's transactions (20_memory.md R68 to
R72), ending a command with an error or without (60_exceptions.md R274, R275), latching a command (R285), and reset
(70_reset_and_hazards.md R300 to R303). -/

namespace Sys2Proof.Machine

/-! ### The frame buffer (10_state.md R43) -/

/-- What an index that is not listed reads as: the reset value of every byte of FRAME (R43, R301). -/
def Memory.unlisted : Byte := 0x00

/-- The frame buffer holds the bytes `FRAME[0..31]` (R43). -/
def Memory.size : Nat := 32

/-- Indices strictly rising. -/
def Memory.sorted : Memory → Bool
  | [] => true
  | [_] => true
  | (a, _) :: (c, d) :: rest => decide (a < c) && Memory.sorted ((c, d) :: rest)

/-- The canonical form: indices strictly rising and below 32, no entry equal to what an unlisted index reads as. -/
def Memory.wf (m : Memory) : Bool :=
  Memory.sorted m && m.all fun c => decide (c.1 < Memory.size) && c.2 != Memory.unlisted

/-- `FRAME[a]`. -/
def Memory.read : Memory → Nat → Byte
  | [], _ => Memory.unlisted
  | (x, b) :: rest, a => if x = a then b else Memory.read rest a

/-- `FRAME[a] <- b`, in canonical form. -/
def Memory.write : Memory → Nat → Byte → Memory
  | [], a, b => if b = Memory.unlisted then [] else [(a, b)]
  | (x, c) :: rest, a, b =>
    if a < x then
      if b = Memory.unlisted then (x, c) :: rest else (a, b) :: (x, c) :: rest
    else if a = x then
      if b = Memory.unlisted then rest else (a, b) :: rest
    else (x, c) :: Memory.write rest a b

/-- `FRAME[a..a+length) <- bytes`, in the order of the bytes (R153). -/
def Memory.writeBytes : Memory → Nat → List Byte → Memory
  | m, _, [] => m
  | m, a, b :: bs => Memory.writeBytes (Memory.write m a b) (a + 1) bs

/-! ### The byte source (20_memory.md) -/

/-- `SrcPeek()`: the head, if there is one (R68). It changes nothing. -/
def srcPeek (q : List Byte) : Option Byte := q.head?

/-- `SrcPop()`: the head is removed (R69). -/
def srcPop (q : List Byte) : List Byte := q.tail

/-- `SrcAvail()`: the number of bytes in the byte source. The port's saturation at `2^AVAIL_W − 1` (R70) never changes the
one comparison the core makes with the answer, and the spec lets a model take the length (92_eei_decisions.md D27);
`srcAvailSaturated` is the port's own answer and Sys2Proof/Laws/Source.lean proves the two alike. -/
def srcAvail (q : List Byte) : Nat := q.length

/-- `SrcAvail()` as a port of width `w` answers it (R70). -/
def srcAvailSaturated (w : Nat) (q : List Byte) : Nat := min q.length (2 ^ w - 1)

/-- The two answers of `SrcReadExact(n)` (R71), each with what is left in the byte source. -/
inductive ReadAnswer where
  | ok (bytes rest : List Byte)
  | short (k : Nat) (rest : List Byte)
  deriving DecidableEq, Repr

/-- `SrcReadExact(n)` (R71), the transport having drawn `draw`: `short(k)` exists only if `SRC_MAY_FAIL` and only for
`k < n`; every other draw is the answer `ok`. -/
def srcReadExact (draw : Option Nat) (n : Nat) (q : List Byte) : ReadAnswer :=
  match draw with
  | none => .ok (q.take n) (q.drop n)
  | some k =>
    if k < n ∧ Config.srcMayFail = true then .short k (q.drop k) else .ok (q.take n) (q.drop n)

/-- `Arrive(b)` (R72). -/
def srcArrive (q : List Byte) (b : Byte) : List Byte := q ++ [b]

/-! ### Ending a command (60_exceptions.md) -/

/-- The code of an error in `STATUS.ERR` (R260). -/
def errorCode : ErrorCause → BitVec 4
  | .noStartByte => 1
  | .starved => 2
  | .incomplete => 3
  | .shortRead => 4
  | .badHeader => 5
  | .badChecksum => 6
  | .errSeq => 14
  | .errIllegal => 15

/-- `raise E`: taking an exception (R274). No state is saved, no mode changes, the core is idle again. -/
def raise (e : ErrorCause) (s : State) : State :=
  { s with err := errorCode e, done := true, phase := .idle }

/-- `done`: the end of a command without error (R275). There is no return from an error: the host issues the next command
(R277). -/
def endOk (s : State) : State := { s with err := 0, done := true, phase := .idle }

/-- `PHASE <- p` (00_scope.md R10). -/
def goto (p : Phase) (s : State) : State := { s with phase := p }

/-- The effects common to the issue of every legal command (R285): the word is latched, DONE and ERR are cleared. -/
def latch (i : Instr) (s : State) : State := { s with cmdl := encodeWord i, done := false, err := 0 }

/-! ### Reset (70_reset_and_hazards.md) -/

/-- The reset event (R300, R301): all core state to its reset value, whatever it was; the byte source (R302) and the other
agents' own fields stay. -/
def resetCore (s : State) : State :=
  { State.reset with
    source := s.source, readDraw := s.readDraw, agenda := s.agenda
    readData := s.readData, drawCount := s.drawCount }

end Sys2Proof.Machine
end

