-- ==== Sys2Proof/Machine/Operands.lean ====
section
/-! DEFINITION. The operands: bytes and big-endian fields of FRAME (00_scope.md R10, 20_memory.md R64, 30_encoding.md
R100), the protocol under validation and its frame length (10_state.md R45, 41_validate.md R154), and the value of OPERAND
(43_aqi.md R201). -/

namespace Sys2Proof.Machine

/-- `u16be(h, l) = h × 256 + l` (00_scope.md R9). -/
def u16be (h l : Byte) : Half := BitVec.ofNat 16 (h.toNat * 256 + l.toNat)

/-- `MemRead(a, 2)` (00_scope.md R10). -/
def memRead2 (m : Memory) (a : Nat) : Half := u16be (Memory.read m a) (Memory.read m (a + 1))

/-- Field `i` of a PlantowerPM frame, `i` in 0..13 (30_encoding.md R90, 42_decode.md R182). -/
def wireField (m : Memory) (i : Nat) : Half := memRead2 m (2 * i + 2)

/-- The frame length `n` of a protocol (41_validate.md R154). -/
def frameLength : ProtocolKind → Nat
  | .plantowerPM => Config.lenP
  | .cubicPM1006 => Config.lenC

/-- `vp`, the protocol under validation (10_state.md R45): the command's operand, and PROTO where it names none. -/
def underValidation (i : Instr) (s : State) : ProtocolKind :=
  match i.protocolOperand with
  | some p => p
  | none => s.proto

/-- The value of a concentration operand (00_scope.md R12). -/
inductive Conc where
  | finite (c : ℚ)
  | posInf
  | negInf
  | nan
  deriving DecidableEq, Repr

/-- The sign factor `(−1)^s` (43_aqi.md R201). -/
def signFactor (w : Word) : ℚ := if w.msb then -1 else 1

/-- `val(OPERAND)`: the value of a binary32 pattern, exactly (43_aqi.md R201). -/
def operandValue (w : Word) : Conc :=
  let e := (w.extractLsb' 23 8).toNat
  let m := (w.extractLsb' 0 23).toNat
  if e = 255 then
    if m ≠ 0 then .nan else if w.msb then .negInf else .posInf
  else if e = 0 then
    .finite (signFactor w * (m : ℚ) * (2 : ℚ) ^ (-149 : ℤ))
  else
    .finite (signFactor w * ((2 ^ 23 + m : ℕ) : ℚ) * (2 : ℚ) ^ ((e : ℤ) - 150))

/-- The operand a 16-bit concentration register hands to the converter: its integer value, exactly (42_decode.md R187). -/
def registerValue (x : Half) : Conc := .finite (x.toNat : ℚ)

end Sys2Proof.Machine
end

