-- ==== Sys2Proof/Machine/Converter.lean ====
section
/-! DEFINITION. The AQI converter (43_aqi.md): truncation, band selection, the linear interpolation primitive, rounding,
and the function `aqi(p, s, c)`, all in exact rational arithmetic (R202). -/

namespace Sys2Proof.Machine

/-- The table number `t = 2 × STD + POL` (30_encoding.md R95). -/
def tableNumber (p : Pollutant) (d : Standard) : Nat :=
  2 * (standardCode d).toNat + (pollutantCode p).toNat

/-- `conc_low` of a band, in µg/m³ (R203). -/
def concLow (b : Config.Band) : ℚ := (b.cl10 : ℚ) / 10

/-- `conc_high` of a band, in µg/m³ (R203). -/
def concHigh (b : Config.Band) : ℚ := (b.ch10 : ℚ) / 10

/-- Truncation to one decimal place, `floor(10 × c) / 10` (R208). -/
def truncTenth (c : ℚ) : ℚ := (⌊10 * c⌋ : ℚ) / 10

/-- `c'`: truncated for table 0 (PM2.5-US) only (R208). -/
def adjusted (p : Pollutant) (d : Standard) (c : ℚ) : ℚ :=
  if tableNumber p d = 0 then truncTenth c else c

/-- The band test: half-open for the US tables, closed for the China tables (R209). -/
def inBand (d : Standard) (c : ℚ) (b : Config.Band) : Bool :=
  match d with
  | .us => decide (concLow b ≤ c) && decide (c < concHigh b)
  | .china => decide (concLow b ≤ c) && decide (c ≤ concHigh b)

/-- The linear interpolation primitive (R210). -/
def lin (c : ℚ) (b : Config.Band) : ℚ :=
  (c - concLow b) / (concHigh b - concLow b) * ((b.ah : ℚ) - (b.al : ℚ)) + (b.al : ℚ)

/-- Rounding to the nearest integer, a tie going away from zero (R211). -/
def rnd (x : ℚ) : ℤ := if 0 ≤ x then ⌊x + 1 / 2⌋ else -⌊-x + 1 / 2⌋

/-- The score of an adjusted concentration in a table: 0 below 0, the first band that matches in ascending order,
`OUT_OF_RANGE` where none does (R212). -/
def scoreIn (t : List Config.Band) (d : Standard) (c : ℚ) : Nat :=
  if c < 0 then 0
  else match t.find? (inBand d c) with
    | some b => (rnd (lin c b)).toNat
    | none => Config.outOfRange

/-- `aqi(p, s, c)` over a breakpoint ROM (R212, R213). -/
def aqiWith (rom : Nat → List Config.Band) (p : Pollutant) (d : Standard) (c : Conc) : Nat :=
  match c with
  | .nan => Config.outOfRange
  | .negInf => 0
  | .posInf => Config.outOfRange
  | .finite c => scoreIn (rom (tableNumber p d)) d (adjusted p d c)

/-- `aqi(p, s, c)` over the machine's ROM (R212, R44). -/
def aqi (p : Pollutant) (d : Standard) (c : Conc) : Nat := aqiWith Config.aqiTable p d c

/-- The score as an AQI register or RESULT holds it: 32 bits, so that 99999 fits (10_state.md R25). -/
def aqiScore (p : Pollutant) (d : Standard) (c : Conc) : Word := BitVec.ofNat 32 (aqi p d c)

end Sys2Proof.Machine
end

