-- ==== Sys2Proof/Machine/Flags.lean ====
section
/-! DEFINITION. What the core tests and what the host sees of it: the marker test (40_sync.md R131, R132), the header check
and the two checksums (41_validate.md R155 to R159), and the view STATUS (10_state.md R37). -/

namespace Sys2Proof.Machine

/-- The marker test: the whole byte against 0x42 and 0x16 and nothing else (40_sync.md R132, 30_encoding.md R105). -/
def markerOf (b : Byte) : Option ProtocolKind :=
  if b = Config.markP then some .plantowerPM
  else if b = Config.markC then some .cubicPM1006
  else none

/-- The first bytes of FRAME are `bytes`, from index `a` on. -/
def frameStartsWith (m : Memory) : Nat → List Byte → Bool
  | _, [] => true
  | a, b :: bs => Memory.read m a == b && frameStartsWith m (a + 1) bs

/-- `header_ok(vp)` (41_validate.md R155, R156). -/
def headerOk (vp : ProtocolKind) (m : Memory) : Bool :=
  match vp with
  | .plantowerPM => frameStartsWith m 0 Config.hdrP
  | .cubicPM1006 => frameStartsWith m 0 Config.hdrC

/-- `Σ FRAME[0..n)` as a natural number, before any reduction (00_scope.md R9). -/
def byteSum (m : Memory) : Nat → Nat
  | 0 => 0
  | n + 1 => byteSum m n + (Memory.read m n).toNat

/-- `sum(vp)` as the CHECK step writes it to ACC: 16-bit for PlantowerPM (41_validate.md R158), 8-bit with ACC[15:8] = 0 for
CubicPM1006 (R159). -/
def frameSum (vp : ProtocolKind) (m : Memory) : Half :=
  match vp with
  | .plantowerPM => BitVec.ofNat 16 (byteSum m Config.sumEndP)
  | .cubicPM1006 => (BitVec.ofNat 8 (byteSum m Config.lenC)).setWidth 16

/-- `checksum_ok(vp)`: the full 16 bits against the wire's value at bytes 30, 31 (41_validate.md R158), or a sum of exactly
0 (R159). -/
def checksumOk (vp : ProtocolKind) (m : Memory) : Bool :=
  match vp with
  | .plantowerPM => frameSum .plantowerPM m == memRead2 m 30
  | .cubicPM1006 => frameSum .cubicPM1006 m == 0

/-- `BUSY` (10_state.md R33): PHASE ≠ IDLE. -/
def busy (s : State) : Bool := s.phase != .idle

/-- `STATUS` (10_state.md R37), most significant field first: bits 15:12 read as 0. -/
def statusWord (s : State) : Half :=
  (0 : BitVec 4) ++ BitVec.ofBool s.hasCounts ++ BitVec.ofBool s.rvalid ++ protocolCode s.fproto
    ++ BitVec.ofBool s.fvalid ++ protocolCode s.proto ++ BitVec.ofBool s.pvalid ++ s.err
    ++ BitVec.ofBool s.done ++ BitVec.ofBool (busy s)

end Sys2Proof.Machine
end

