-- ==== Sys2Proof/Machine/AqiCommands.lean ====
section
/-! DEFINITION. The converter family (43_aqi.md): the AQI1 step and the four standalone commands. -/

namespace Sys2Proof.Machine

/-- The AQI1 step (R214). -/
def aqi1Step (p : Pollutant) (d : Standard) (s : State) : State :=
  endOk { s with result := aqiScore p d (operandValue s.operand) }

/-- The issue of an `AQI.*` command (60_exceptions.md R285). -/
def issueAqi (i : Instr) (s : State) : State := goto .aqi1 (latch i s)

/-- The flow the four commands share (R215 to R218): issued when idle, then AQI1. -/
def aqiFlow (i : Instr) (p : Pollutant) (d : Standard) (s : State) : Host.Outcome State Fault Refusal :=
  match s.phase with
  | .idle => .next (issueAqi i s)
  | .scan => .fault .phaseOutsideCommand
  | .avail => .fault .phaseOutsideCommand
  | .xfer => .fault .phaseOutsideCommand
  | .check => .fault .phaseOutsideCommand
  | .dec => .fault .phaseOutsideCommand
  | .conv => .fault .phaseOutsideCommand
  | .aqi1 => .next (aqi1Step p d s)

/-- `AQI.PM25.US` (R215): table 0, with truncation, half-open bands. -/
def execAqiPm25Us (s : State) : Host.Outcome State Fault Refusal := aqiFlow .aqiPm25Us .pm25 .us s

/-- `AQI.PM10.US` (R216): table 1, no truncation, half-open bands. -/
def execAqiPm10Us (s : State) : Host.Outcome State Fault Refusal := aqiFlow .aqiPm10Us .pm10 .us s

/-- `AQI.PM25.CN` (R217): table 2, no truncation, closed bands in ascending order. -/
def execAqiPm25Cn (s : State) : Host.Outcome State Fault Refusal := aqiFlow .aqiPm25Cn .pm25 .china s

/-- `AQI.PM10.CN` (R218): table 3, no truncation, closed bands in ascending order. -/
def execAqiPm10Cn (s : State) : Host.Outcome State Fault Refusal := aqiFlow .aqiPm10Cn .pm10 .china s

end Sys2Proof.Machine
end

