-- ==== Sys2Proof/Machine/FrameDecoder.lean ====
section
/-! DEFINITION. The frame decoder family (42_decode.md): the steps DEC and CONV and the command DECODE. -/

namespace Sys2Proof.Machine

/-- The field registers of a PlantowerPM frame (R182): `x[0]` to `x[13]` from the 14 wire fields in order, `x[14]` from
bytes 30, 31. The AQI registers keep their values. -/
def fieldsP (m : Memory) (r : Reading) : Reading :=
  { r with
    frameLen := wireField m 0, pm1Std := wireField m 1, pm25Std := wireField m 2, pm10Std := wireField m 3
    pm1Env := wireField m 4, pm25Env := wireField m 5, pm10Env := wireField m 6
    cnt03 := wireField m 7, cnt05 := wireField m 8, cnt10 := wireField m 9, cnt25 := wireField m 10
    cnt50 := wireField m 11, cnt100 := wireField m 12, rsvd := wireField m 13
    checksum := memRead2 m 30 }

/-- The field registers of a CubicPM1006 frame (R183): only PM25_ENV is populated, from bytes 5, 6. -/
def fieldsC (m : Memory) (r : Reading) : Reading :=
  { r with
    frameLen := 0, pm1Std := 0, pm25Std := 0, pm10Std := 0, pm1Env := 0, pm25Env := memRead2 m 5, pm10Env := 0
    cnt03 := 0, cnt05 := 0, cnt10 := 0, cnt25 := 0, cnt50 := 0, cnt100 := 0, rsvd := 0, checksum := 0 }

/-- The DEC step (R181). -/
def decStep (s : State) : State :=
  match s.fproto with
  | .plantowerPM => goto .conv { s with reading := fieldsP s.frame s.reading, hasCounts := true }
  | .cubicPM1006 => goto .conv { s with reading := fieldsC s.frame s.reading, hasCounts := false }

/-- The four scores of a Reading, from the environmental concentrations (R185, R186). -/
def convert (r : Reading) : Reading :=
  { r with
    aqiPm25Us := aqiScore .pm25 .us (registerValue r.pm25Env)
    aqiPm10Us := aqiScore .pm10 .us (registerValue r.pm10Env)
    aqiPm25Cn := aqiScore .pm25 .china (registerValue r.pm25Env)
    aqiPm10Cn := aqiScore .pm10 .china (registerValue r.pm10Env) }

/-- The CONV step (R186). -/
def convStep (s : State) : State := endOk { s with reading := convert s.reading, rvalid := true }

/-- The issue of DECODE (R180, 60_exceptions.md R285): without a validated frame it raises ERR_SEQ at once (R269). -/
def issueDecode (s : State) : State :=
  let cleared := { latch .decode s with rvalid := false }
  if s.fvalid then goto .dec cleared else raise .errSeq cleared

/-- `DECODE` (R180): issued when idle, then DEC, CONV. -/
def execDecode (s : State) : Host.Outcome State Fault Refusal :=
  match s.phase with
  | .idle => .next (issueDecode s)
  | .scan => .fault .phaseOutsideCommand
  | .avail => .fault .phaseOutsideCommand
  | .xfer => .fault .phaseOutsideCommand
  | .check => .fault .phaseOutsideCommand
  | .dec => .next (decStep s)
  | .conv => .next (convStep s)
  | .aqi1 => .fault .phaseOutsideCommand

end Sys2Proof.Machine
end

