-- ==== Sys2Proof/Machine/Sync.lean ====
section
/-! DEFINITION. The synchronizer family (40_sync.md): the SCAN step and the command SYNC. -/

namespace Sys2Proof.Machine

/-- The SCAN step (R131): the budget is tested before the peek (R136); a marker ends the scan and is not consumed; any
other byte is consumed and discarded. `op` is CMDL.OP: SYNC is done at a marker, READ goes on to AVAIL. -/
def scanStep (op : Op) (s : State) : State :=
  if s.dcnt = Config.syncBudget then raise .noStartByte s
  else match srcPeek s.source with
    | none => raise .starved s
    | some b =>
      match markerOf b with
      | some kind =>
        let found := { s with proto := kind, pvalid := true }
        if op = .sync then endOk found else goto .avail found
      | none => { s with source := srcPop s.source, dcnt := s.dcnt + 1 }

/-- The issue of SYNC (R130, 60_exceptions.md R285). -/
def issueSync (s : State) : State :=
  { latch .sync s with pvalid := false, dcnt := 0, phase := .scan }

/-- `SYNC` (R130): issued when idle; then one SCAN step each time the core moves. -/
def execSync (s : State) : Host.Outcome State Fault Refusal :=
  match s.phase with
  | .idle => .next (issueSync s)
  | .scan => .next (scanStep .sync s)
  | .avail => .fault .phaseOutsideCommand
  | .xfer => .fault .phaseOutsideCommand
  | .check => .fault .phaseOutsideCommand
  | .dec => .fault .phaseOutsideCommand
  | .conv => .fault .phaseOutsideCommand
  | .aqi1 => .fault .phaseOutsideCommand

end Sys2Proof.Machine
end

