-- ==== Sys2Proof/Machine/Validate.lean ====
section
/-! DEFINITION. The validator family (41_validate.md): the steps AVAIL, XFER and CHECK and the commands VALIDATE.P and
VALIDATE.C. -/

namespace Sys2Proof.Machine

/-- The AVAIL step (R152), `vp` the protocol under validation. -/
def availStep (vp : ProtocolKind) (s : State) : State :=
  if frameLength vp ≤ srcAvail s.source then goto .xfer s else raise .incomplete s

/-- What XFER leaves in FRAME: the `n` bytes read, in arrival order, and 0x00 in the rest of the buffer (R153). -/
def loadFrame (m : Memory) (n : Nat) (bytes : List Byte) : Memory :=
  Memory.writeBytes m 0 (bytes ++ List.replicate (Memory.size - n) 0x00)

/-- The XFER step (R153). The transport's draw is spent on this read-exact. The precondition `n ≤ |Q|` of `SrcReadExact`
(20_memory.md R71) holds whenever the step is reached. -/
def xferStep (vp : ProtocolKind) (s : State) : Host.Outcome State Fault Refusal :=
  if s.source.length < frameLength vp then .fault .readExactUnderflow
  else match srcReadExact s.readDraw (frameLength vp) s.source with
    | .ok bytes rest =>
      .next (goto .check
        { s with frame := loadFrame s.frame (frameLength vp) bytes, source := rest, readDraw := none })
    | .short _ rest => .next (raise .shortRead { s with source := rest, readDraw := none })

/-- The CHECK step (R157): the header before the checksum; ACC is written only when the header is good (10_state.md R48).
`op` is CMDL.OP: VALIDATE is done, READ goes on to DEC. -/
def checkStep (op : Op) (vp : ProtocolKind) (s : State) : State :=
  if headerOk vp s.frame = false then raise .badHeader s
  else
    let summed := { s with acc := frameSum vp s.frame }
    if checksumOk vp s.frame = false then raise .badChecksum summed
    else
      let good := { summed with fvalid := true, fproto := vp }
      if op = .validate then endOk good else goto .dec good

/-- The issue of VALIDATE.P and VALIDATE.C (R150, R151, 60_exceptions.md R285). -/
def issueValidate (i : Instr) (s : State) : State :=
  { latch i s with fvalid := false, phase := .avail }

/-- The flow both commands share (R150): issued when idle, then AVAIL, XFER, CHECK. -/
def validateFlow (i : Instr) (s : State) : Host.Outcome State Fault Refusal :=
  match s.phase with
  | .idle => .next (issueValidate i s)
  | .scan => .fault .phaseOutsideCommand
  | .avail => .next (availStep (underValidation i s) s)
  | .xfer => xferStep (underValidation i s) s
  | .check => .next (checkStep .validate (underValidation i s) s)
  | .dec => .fault .phaseOutsideCommand
  | .conv => .fault .phaseOutsideCommand
  | .aqi1 => .fault .phaseOutsideCommand

/-- `VALIDATE.P` (R150): `vp` = PlantowerPM, `n` = 32. -/
def execValidateP (s : State) : Host.Outcome State Fault Refusal := validateFlow .validateP s

/-- `VALIDATE.C` (R151): `vp` = CubicPM1006, `n` = 20. -/
def execValidateC (s : State) : Host.Outcome State Fault Refusal := validateFlow .validateC s

end Sys2Proof.Machine
end

