-- ==== Sys2Proof/Machine/Pipeline.lean ====
section
/-! DEFINITION. The whole pipeline in one command (44_read.md): READ. It defines no step of its own (R241). -/

namespace Sys2Proof.Machine

/-- The issue of READ (R240, 60_exceptions.md R285). -/
def issueRead (s : State) : State :=
  { latch .read s with pvalid := false, dcnt := 0, fvalid := false, rvalid := false, phase := .scan }

/-- `READ` (R240): issued when idle, then SCAN repeated, AVAIL, XFER, CHECK, DEC, CONV (R241), `vp` = PROTO throughout. -/
def execRead (s : State) : Host.Outcome State Fault Refusal :=
  match s.phase with
  | .idle => .next (issueRead s)
  | .scan => .next (scanStep .read s)
  | .avail => .next (availStep (underValidation .read s) s)
  | .xfer => xferStep (underValidation .read s) s
  | .check => .next (checkStep .read (underValidation .read s) s)
  | .dec => .next (decStep s)
  | .conv => .next (convStep s)
  | .aqi1 => .fault .phaseOutsideCommand

end Sys2Proof.Machine
end

