-- ==== Sys2Proof/Machine/Dispatch.lean ====
section
/-! DEFINITION. One arm per instruction: the meaning it calls. -/

namespace Sys2Proof.Machine

def exec (i : Instr) (s : State) : Host.Outcome State Fault Refusal :=
  match i with
  | .sync => Sys2Proof.Machine.execSync s
  | .validateP => Sys2Proof.Machine.execValidateP s
  | .validateC => Sys2Proof.Machine.execValidateC s
  | .decode => Sys2Proof.Machine.execDecode s
  | .aqiPm25Us => Sys2Proof.Machine.execAqiPm25Us s
  | .aqiPm10Us => Sys2Proof.Machine.execAqiPm10Us s
  | .aqiPm25Cn => Sys2Proof.Machine.execAqiPm25Cn s
  | .aqiPm10Cn => Sys2Proof.Machine.execAqiPm10Cn s
  | .read => Sys2Proof.Machine.execRead s

end Sys2Proof.Machine
end

