-- ==== Sys2Proof/Machine/HostPort.lean ====
section
/-! DEFINITION. The host register file (10_state.md R35 to R42, 60_exceptions.md R284 to R286) and whose turn it is: what
the next action of the agents asks of the machine (00_scope.md R13, 20_memory.md R77). -/

namespace Sys2Proof.Machine

/-- `x[i]`, zero-extended to 32 bits; indices above 18 name no register (R20, R35). -/
def readingRegister (r : Reading) (i : Nat) : Word :=
  match i with
  | 0 => r.frameLen.setWidth 32
  | 1 => r.pm1Std.setWidth 32
  | 2 => r.pm25Std.setWidth 32
  | 3 => r.pm10Std.setWidth 32
  | 4 => r.pm1Env.setWidth 32
  | 5 => r.pm25Env.setWidth 32
  | 6 => r.pm10Env.setWidth 32
  | 7 => r.cnt03.setWidth 32
  | 8 => r.cnt05.setWidth 32
  | 9 => r.cnt10.setWidth 32
  | 10 => r.cnt25.setWidth 32
  | 11 => r.cnt50.setWidth 32
  | 12 => r.cnt100.setWidth 32
  | 13 => r.rsvd.setWidth 32
  | 14 => r.checksum.setWidth 32
  | 15 => r.aqiPm25Us
  | 16 => r.aqiPm10Us
  | 17 => r.aqiPm25Cn
  | 18 => r.aqiPm10Cn
  | _ => 0

/-- The registers of the map that a host may read only while BUSY = 0 (60_exceptions.md R284): OPERAND, RESULT, DCNT, ACC,
`x[i]`, `FRAME[i]`. -/
def guardedIndex (idx : Byte) : Bool :=
  let n := idx.toNat
  (2 ≤ n && n ≤ 5) || (0x10 ≤ n && n ≤ 0x22) || (0x40 ≤ n && n ≤ 0x5F)

/-- What the register with index `idx` holds, zero-extended to 32 bits (R35): CMD has no storage and reads as 0 (R36), and
so does every reserved index (R42). -/
def registerFile (s : State) (idx : Byte) : Word :=
  let n := idx.toNat
  if n = 0x01 then (statusWord s).setWidth 32
  else if n = 0x02 then s.operand
  else if n = 0x03 then s.result
  else if n = 0x04 then s.dcnt.setWidth 32
  else if n = 0x05 then s.acc.setWidth 32
  else if 0x10 ≤ n ∧ n ≤ 0x22 then readingRegister s.reading (n - 0x10)
  else if 0x40 ≤ n ∧ n ≤ 0x5F then (Memory.read s.frame (n - 0x40)).setWidth 32
  else 0

/-- A host read (R284): it changes no register; its value is left in `readData`. While BUSY = 1 a register other than STATUS
returns a free value. -/
def hostRead (idx : Byte) (s : State) : State :=
  if busy s && guardedIndex idx then
    { s with readData := Config.freeHostRead s.drawCount, drawCount := s.drawCount + 1 }
  else { s with readData := registerFile s idx }

/-- What the machine does in the next step. -/
inductive Turn where
  /-- the instruction `i` runs from `s` -/
  | runs (i : Instr) (s : State)
  /-- the next state is `s`: no instruction runs -/
  | moves (s : State)
  /-- the machine stops -/
  | faults (r : Fault)
  /-- the step has no meaning -/
  | refuses (r : Refusal)
  deriving DecidableEq, Repr

/-- The core's turn (10_state.md R29): idle, it has no enabled step and waits for the host (R28); busy, it goes on with the
command that CMDL holds (R45). -/
def coreTurn (s : State) : Turn :=
  if busy s then
    match decodeWord s.cmdl with
    | .ok i => .runs i s
    | .error _ => .faults .noCommandLatched
  else .moves s

/-- The word a host write to CMD carries: the register is 8 bits wide (R35, R36). -/
def commandByte (v : Word) : Byte := v.setWidth 8

/-- A host write (R35, R36, R38, R42): ignored while busy (60_exceptions.md R286); a legal word written to CMD issues its
command (R285), any other is ERR_ILLEGAL (R268); OPERAND is written; every other index is read-only or reserved. -/
def hostWrite (idx : Byte) (v : Word) (s : State) : Turn :=
  if busy s then .moves s
  else if idx = 0x00 then
    match decodeWord (commandByte v) with
    | .ok i => .runs i s
    | .error _ => .moves (raise .errIllegal s)
  else if idx = 0x02 then .moves { s with operand := v }
  else .moves s

/-- What one action of an agent asks of the machine (00_scope.md R13). -/
def takeAction (a : AgentAction) (s : State) : Turn :=
  match a with
  | .core => coreTurn s
  | .arrive b => .moves { s with source := srcArrive s.source b }
  | .failRead k => .moves { s with readDraw := some k }
  | .foreignPop => .refuses .foreignConsumer
  | .hostWrite idx v => hostWrite idx v s
  | .hostRead idx => .moves (hostRead idx s)
  | .reset => .moves (resetCore s)

/-- What happens next: the agenda's first action, taken off it; the core's turn where the agenda is empty. -/
def nextTurn (s : State) : Turn :=
  match s.agenda with
  | [] => coreTurn s
  | a :: rest => takeAction a { s with agenda := rest }

end Sys2Proof.Machine
end

