-- ==== Sys2Proof/Machine/Step.lean ====
section
/-! DEFINITION. One step of the machine: one atomic action of one agent (10_state.md R29, 20_memory.md R77). -/

namespace Sys2Proof.Machine

/-- One step: what `nextTurn` finds, with the instruction it names run by `exec`. -/
def step (s : State) : Host.Outcome State Fault Refusal :=
  match nextTurn s with
  | .runs i s' => exec i s'
  | .moves s' => .next s'
  | .faults r => .fault r
  | .refuses r => .refused r

/-- `s` with the command whose bits are `w` as the host's very next action, the core idle so that it is accepted
(60_exceptions.md R285): the hardware fetches nothing (20_memory.md R81), its commands are the host's writes to CMD. -/
def State.withFetchWord (s : State) (nbits w : Nat) : State :=
  { s with
    phase := .idle
    agenda := .hostWrite 0x00 (BitVec.ofNat 32 (w % 2 ^ nbits)) :: s.agenda }

end Sys2Proof.Machine
end

