-- ==== Sys2Proof/Safety.lean ====
section
/-! DEFINITION. The terms claims are made in: the invariant that every run keeps, which phases belong to which command
(10_state.md R29), how many steps of the core a command can still take (70_reset_and_hazards.md R316), the scores a
conversion can return (10_state.md R25), and the number of bytes before the first marker (40_sync.md R135). -/

namespace Sys2Proof.Machine

/-- The phases a command in progress passes through (R29, 44_read.md R241). -/
def inFlow (i : Instr) (p : Phase) : Bool :=
  match i.op, p with
  | .sync, .scan => true
  | .validate, .avail => true
  | .validate, .xfer => true
  | .validate, .check => true
  | .decode, .dec => true
  | .decode, .conv => true
  | .aqi, .aqi1 => true
  | .read, .scan => true
  | .read, .avail => true
  | .read, .xfer => true
  | .read, .check => true
  | .read, .dec => true
  | .read, .conv => true
  | _, _ => false

/-- What the issue of each command leaves (60_exceptions.md R285). -/
def issued (i : Instr) (s : State) : State :=
  match i with
  | .sync => issueSync s
  | .validateP => issueValidate .validateP s
  | .validateC => issueValidate .validateC s
  | .decode => issueDecode s
  | .aqiPm25Us => issueAqi .aqiPm25Us s
  | .aqiPm10Us => issueAqi .aqiPm10Us s
  | .aqiPm25Cn => issueAqi .aqiPm25Cn s
  | .aqiPm10Cn => issueAqi .aqiPm10Cn s
  | .read => issueRead s

/-- The codes `STATUS.ERR` can hold: 7 to 13 are never produced (60_exceptions.md R260). -/
def errProduced (e : BitVec 4) : Bool := e.toNat ≤ 6 || e.toNat == 14 || e.toNat == 15

/-- The scores a conversion can return: 0 to 500, or 99999 (43_aqi.md R221). -/
def isScore (v : Word) : Bool := decide (v.toNat ≤ 500) || v.toNat == Config.outOfRange

/-- The four AQI registers of a Reading hold scores (10_state.md R25). -/
def Reading.scored (r : Reading) : Bool :=
  isScore r.aqiPm25Us && isScore r.aqiPm10Us && isScore r.aqiPm25Cn && isScore r.aqiPm10Cn

/-- What is true of the machine at every moment of every run. -/
structure Inv (s : State) : Prop where
  /-- FRAME is in canonical form (R43). -/
  frame_canonical : Memory.wf s.frame = true
  /-- DCNT never exceeds SYNC_BUDGET (R47). -/
  dcnt_bounded : s.dcnt.toNat ≤ 32
  /-- ERR holds a code that is produced (R260). -/
  err_produced : errProduced s.err = true
  /-- A busy core runs the legal command in CMDL, at a phase of that command's flow (R29, R45). -/
  busy_in_flow : s.phase ≠ .idle → ∃ i, decodeWord s.cmdl = .ok i ∧ inFlow i s.phase = true
  /-- A busy core has DONE = 0 and ERR = 0 (R33). -/
  busy_not_done : s.phase ≠ .idle → s.done = false ∧ s.err = 0
  /-- `SrcReadExact(n)` is issued only with `n ≤ |Q|` (20_memory.md R71). -/
  bytes_available : s.phase = .xfer → ∀ i, decodeWord s.cmdl = .ok i →
    frameLength (underValidation i s) ≤ s.source.length
  /-- DEC and CONV are reached only with a validated frame (42_decode.md R181). -/
  decoding_validated : s.phase = .dec ∨ s.phase = .conv → s.fvalid = true
  /-- While a command runs, the flag of what it is still to produce is 0: PVALID while it scans, FVALID until CHECK has
  passed, RVALID until the end of DECODE or READ (R34, 60_exceptions.md R285). -/
  pending_flags_clear : s.phase ≠ .idle → ∀ i, decodeWord s.cmdl = .ok i →
    (s.phase = .scan → s.pvalid = false)
      ∧ (i.op = .validate ∨ i.op = .read → s.phase ≠ .dec → s.phase ≠ .conv → s.fvalid = false)
      ∧ (i.op = .decode ∨ i.op = .read → s.rvalid = false)
  /-- The AQI registers hold scores (R25). -/
  reading_scored : s.reading.scored = true
  /-- RESULT holds a score (R39). -/
  result_scored : isScore s.result = true

/-- Within one READ the marker the synchronizer matched is the byte the header check finds first (44_read.md R241): at the
head of the byte source until XFER, then in `FRAME[0]`; and the frame is checked under PROTO (R246). -/
structure MarkerKept (s : State) : Prop where
  at_head : decodeWord s.cmdl = .ok .read → s.phase = .avail ∨ s.phase = .xfer →
    s.pvalid = true ∧ ∃ b, srcPeek s.source = some b ∧ markerOf b = some s.proto
  in_frame : decodeWord s.cmdl = .ok .read → s.phase = .check →
    s.pvalid = true ∧ markerOf (Memory.read s.frame 0) = some s.proto
  decoded : decodeWord s.cmdl = .ok .read → s.phase = .dec ∨ s.phase = .conv →
    s.pvalid = true ∧ s.fproto = s.proto

/-- The command `i` validates under the protocol `vp` (10_state.md R45). -/
def validatesUnder (i : Instr) (vp : ProtocolKind) (s : State) : Prop :=
  (i = .validateP ∧ vp = .plantowerPM) ∨ (i = .validateC ∧ vp = .cubicPM1006) ∨ (i = .read ∧ vp = s.proto)

/-- A bound on the steps of the core a command still takes: at most 33 SCAN steps and five more (R316). -/
def stepsLeft (s : State) : Nat :=
  match s.phase with
  | .idle => 0
  | .scan => 38 - s.dcnt.toNat
  | .avail => 5
  | .xfer => 4
  | .check => 3
  | .dec => 2
  | .conv => 1
  | .aqi1 => 1

/-- The advances of PHASE (R29): the command's op, the phase before, the phase after a step of the core. -/
def phaseAdvance (op : Op) (p p' : Phase) : Bool :=
  match op, p, p' with
  | .sync, .scan, .scan => true
  | .sync, .scan, .idle => true
  | .read, .scan, .scan => true
  | .read, .scan, .idle => true
  | .read, .scan, .avail => true
  | .validate, .avail, .xfer => true
  | .validate, .avail, .idle => true
  | .validate, .xfer, .check => true
  | .validate, .xfer, .idle => true
  | .validate, .check, .idle => true
  | .read, .avail, .xfer => true
  | .read, .avail, .idle => true
  | .read, .xfer, .check => true
  | .read, .xfer, .idle => true
  | .read, .check, .dec => true
  | .read, .check, .idle => true
  | .decode, .dec, .conv => true
  | .decode, .conv, .idle => true
  | .read, .dec, .conv => true
  | .read, .conv, .idle => true
  | .aqi, .aqi1, .idle => true
  | _, _, _ => false

/-- The number of bytes before the first marker, or all of them where there is none (R135's `j`). -/
def garbage (q : List Byte) : Nat := (q.takeWhile fun b => markerOf b == none).length

/-- `k` steps of the machine from `s`, stopping at the first fault or refusal. -/
def runSteps (k : Nat) (s : State) : Host.Outcome State Fault Refusal := Host.Core.run Sys2Proof.core k s

/-- The frame buffer a read-exact of `n` bytes leaves, the byte source being `q` (41_validate.md R153). -/
def frameOf (m : Memory) (n : Nat) (q : List Byte) : Memory := loadFrame m n (q.take n)

/-- The Reading that DEC and CONV build from a frame buffer checked under `p` (42_decode.md R182, R183, R186). -/
def readingOf (p : ProtocolKind) (m : Memory) (r : Reading) : Reading :=
  match p with
  | .plantowerPM => convert (fieldsP m r)
  | .cubicPM1006 => convert (fieldsC m r)

/-- One bit of one byte of FRAME flipped (41_validate.md R162, R163). -/
def flipBit (m : Memory) (i k : Nat) : Memory := Memory.write m i (Memory.read m i ^^^ BitVec.twoPow 8 k)

end Sys2Proof.Machine
end

