-- ==== Sys2Proof/Certificates/Slice0/Obligations.lean ====
section
/-! DEFINITION. The statements for the provers. Each is about the machine, from the numbered rules of spec/; a clause that
rests on a choice of the model says so and names the log entry. -/

open Sys2Proof Sys2Proof.Machine

/-! ### The command word (30_encoding.md) -/

/-- R104, R106: each of the nine words of the opcode map, its bits as the map's binary column writes them, decodes to its
command, and no other word is legal. -/
def Obligations.NineWordsAreLegal : Prop :=
  decodeWord 0b00000001 = .ok .sync ∧ decodeWord 0b00000010 = .ok .validateP
    ∧ decodeWord 0b00001010 = .ok .validateC ∧ decodeWord 0b00000011 = .ok .decode
    ∧ decodeWord 0b00000100 = .ok .aqiPm25Us ∧ decodeWord 0b00010100 = .ok .aqiPm10Us
    ∧ decodeWord 0b00100100 = .ok .aqiPm25Cn ∧ decodeWord 0b00110100 = .ok .aqiPm10Cn
    ∧ decodeWord 0b00000101 = .ok .read
    ∧ ∀ w : Byte, legalWord w = true ↔ w ∈ [0x01, 0x02, 0x0A, 0x03, 0x04, 0x14, 0x24, 0x34, 0x05]

/-- R106: the legal words, as a list and, equivalently, by their fields: `w[7:6] = 0` and one of (`OP` ∈ {1, 3, 5} and
`w[5:3] = 0`), (`OP = 2` and `w[5:4] = 0`), (`OP = 4` and `w[3] = 0`). -/
def Obligations.LegalWordsByFields : Prop :=
  ∀ w : Byte,
    (legalWord w = true ↔ w ∈ [0x01, 0x02, 0x0A, 0x03, 0x04, 0x14, 0x24, 0x34, 0x05])
      ∧ (legalWord w = true ↔
        w.extractLsb' 6 2 = 0 ∧
          ((w.extractLsb' 0 3 = 1 ∨ w.extractLsb' 0 3 = 3 ∨ w.extractLsb' 0 3 = 5) ∧ w.extractLsb' 3 3 = 0
            ∨ w.extractLsb' 0 3 = 2 ∧ w.extractLsb' 4 2 = 0
            ∨ w.extractLsb' 0 3 = 4 ∧ w.extractLsb' 3 1 = 0))

/-- Decode and encode agree: a command's bytes, whatever follows them, decode to the command and leave what follows; and
bytes that decode are the command's bytes and what is left. -/
def Obligations.DecodeAndEncodeAgree : Prop :=
  (∀ (i : Instr) (rest : List Byte), decode (encode i ++ rest) = .ok (i, rest))
    ∧ ∀ (bs : List Byte) (i : Instr) (rest : List Byte), decode bs = .ok (i, rest) → bs = encode i ++ rest

/-! ### A step, and what the agents may do -/

/-- A step runs the decoded command: the one the host writes to CMD while the core is idle (R285); and, while the core is
busy, the one CMDL holds, at the core's turn (R29, R45). Around it the step only takes the action off the agenda. The agenda
is the model's own (notes/assumptions/1.md, DESIGN CHOICE), and so are the clauses about an empty agenda and about an idle
core's turn: a busy core takes the turn, an idle core's turn changes nothing (notes/assumptions/15.md, DESIGN CHOICE). -/
def Obligations.StepRunsTheCommand : Prop :=
  (∀ (s : State) (w : Byte) (i : Instr) (rest : List AgentAction), s.phase = .idle →
      s.agenda = .hostWrite 0x00 (w.setWidth 32) :: rest → decodeWord w = .ok i →
      step s = exec i { s with agenda := rest })
    ∧ (∀ (s : State) (i : Instr), s.phase ≠ .idle → s.agenda = [] → decodeWord s.cmdl = .ok i → step s = exec i s)
    ∧ (∀ (s : State) (i : Instr) (rest : List AgentAction), s.phase ≠ .idle → s.agenda = .core :: rest →
      decodeWord s.cmdl = .ok i → step s = exec i { s with agenda := rest })
    ∧ (∀ s : State, s.phase = .idle → s.agenda = [] → step s = .next s)
    ∧ (∀ (s : State) (rest : List AgentAction), s.phase = .idle → s.agenda = .core :: rest →
      step s = .next { s with agenda := rest })

/-- The word given to `withFetchWord` is the command the very next step runs, on a state that differs from the given one
only in that the core is idle. The model's own: notes/assumptions/4.md. -/
def Obligations.FetchWordRunsNext : Prop :=
  ∀ (s : State) (i : Instr),
    step (s.withFetchWord 8 (encodeWord i).toNat) = exec i { s with phase := .idle }

/-- R286: a host write to CMD or OPERAND while the core is busy changes nothing and is not remembered; nor does one to a
reserved index (R42). That a write to a read-only index (STATUS, RESULT, DCNT, ACC, `x[i]`, `FRAME[i]`) is ignored too is the
model's choice: notes/assumptions/13.md (DEDUCED). -/
def Obligations.WritesWhileBusyAreIgnored : Prop :=
  ∀ (s : State) (idx : Byte) (v : Word) (rest : List AgentAction), s.phase ≠ .idle →
    s.agenda = .hostWrite idx v :: rest → step s = .next { s with agenda := rest }

/-- R268: a word that is not one of the nine, written to CMD while the core is idle, ends at once with ERR = 15 and DONE = 1;
nothing else changes. -/
def Obligations.IllegalWordEndsWithErrIllegal : Prop :=
  ∀ (s : State) (w : Byte) (rest : List AgentAction), s.phase = .idle →
    s.agenda = .hostWrite 0x00 (w.setWidth 32) :: rest → legalWord w = false →
    step s = .next { s with agenda := rest, done := true, err := 15 }

/-- The other writes of an idle host. OPERAND takes the value (R38); a write to a reserved index changes nothing (R42). That a
write to an index R35 marks read-only (STATUS, RESULT, DCNT, ACC, `x[i]`, `FRAME[i]`) changes nothing is the model's choice:
notes/assumptions/13.md (DEDUCED). -/
def Obligations.IdleWritesReachOnlyOperand : Prop :=
  ∀ (s : State) (idx : Byte) (v : Word) (rest : List AgentAction), s.phase = .idle →
    s.agenda = .hostWrite idx v :: rest → idx ≠ 0x00 →
    step s = .next (if idx = 0x02 then { s with agenda := rest, operand := v } else { s with agenda := rest })

/-- R35: what a host that reads while the core is idle gets from each index: the register's value zero-extended, and 0 from
CMD and from every reserved index. -/
def Obligations.IdleReadsReturnTheRegisterMap : Prop :=
  ∀ (s : State) (idx : Byte) (rest : List AgentAction), s.phase = .idle → s.agenda = .hostRead idx :: rest →
    ∃ v : Word, step s = .next { s with agenda := rest, readData := v }
      ∧ (idx = 0x00 → v = 0)
      ∧ (idx = 0x01 → v = (statusWord s).setWidth 32)
      ∧ (idx = 0x02 → v = s.operand)
      ∧ (idx = 0x03 → v = s.result)
      ∧ (idx = 0x04 → v = s.dcnt.setWidth 32)
      ∧ (idx = 0x05 → v = s.acc.setWidth 32)
      ∧ (idx = 0x10 → v = s.reading.frameLen.setWidth 32)
      ∧ (idx = 0x11 → v = s.reading.pm1Std.setWidth 32)
      ∧ (idx = 0x12 → v = s.reading.pm25Std.setWidth 32)
      ∧ (idx = 0x13 → v = s.reading.pm10Std.setWidth 32)
      ∧ (idx = 0x14 → v = s.reading.pm1Env.setWidth 32)
      ∧ (idx = 0x15 → v = s.reading.pm25Env.setWidth 32)
      ∧ (idx = 0x16 → v = s.reading.pm10Env.setWidth 32)
      ∧ (idx = 0x17 → v = s.reading.cnt03.setWidth 32)
      ∧ (idx = 0x18 → v = s.reading.cnt05.setWidth 32)
      ∧ (idx = 0x19 → v = s.reading.cnt10.setWidth 32)
      ∧ (idx = 0x1A → v = s.reading.cnt25.setWidth 32)
      ∧ (idx = 0x1B → v = s.reading.cnt50.setWidth 32)
      ∧ (idx = 0x1C → v = s.reading.cnt100.setWidth 32)
      ∧ (idx = 0x1D → v = s.reading.rsvd.setWidth 32)
      ∧ (idx = 0x1E → v = s.reading.checksum.setWidth 32)
      ∧ (idx = 0x1F → v = s.reading.aqiPm25Us)
      ∧ (idx = 0x20 → v = s.reading.aqiPm10Us)
      ∧ (idx = 0x21 → v = s.reading.aqiPm25Cn)
      ∧ (idx = 0x22 → v = s.reading.aqiPm10Cn)
      ∧ (0x40 ≤ idx.toNat ∧ idx.toNat ≤ 0x5F → v = (Memory.read s.frame (idx.toNat - 0x40)).setWidth 32)
      ∧ ((0x06 ≤ idx.toNat ∧ idx.toNat ≤ 0x0F) ∨ (0x23 ≤ idx.toNat ∧ idx.toNat ≤ 0x3F) ∨ 0x60 ≤ idx.toNat → v = 0)

/-- R284: a host read, at any time, changes no register, no byte of FRAME and nothing of the byte source: only what the
host itself read, and the count of free values drawn, differ after it. STATUS returns the flags as they are, busy or not;
CMD (R36) and every reserved index (R42) return 0, busy or not. Any other register, read while the core is busy, returns an
unspecified value (R284): the free value at the count of the free values drawn, and only such a read advances that count.
How the free value is drawn is the model's choice: notes/assumptions/3.md. -/
def Obligations.ReadsHaveNoSideEffect : Prop :=
  ∀ (s : State) (idx : Byte) (rest : List AgentAction), s.agenda = .hostRead idx :: rest →
    ∃ (v : Word) (n : Nat), step s = .next { s with agenda := rest, readData := v, drawCount := n }
      ∧ (idx = 0x01 → v = (statusWord s).setWidth 32 ∧ n = s.drawCount)
      ∧ (idx = 0x00 ∨ (0x06 ≤ idx.toNat ∧ idx.toNat ≤ 0x0F) ∨ (0x23 ≤ idx.toNat ∧ idx.toNat ≤ 0x3F) ∨ 0x60 ≤ idx.toNat →
        v = 0 ∧ n = s.drawCount)
      ∧ ((0x02 ≤ idx.toNat ∧ idx.toNat ≤ 0x05) ∨ (0x10 ≤ idx.toNat ∧ idx.toNat ≤ 0x22)
          ∨ (0x40 ≤ idx.toNat ∧ idx.toNat ≤ 0x5F) →
        if s.phase = .idle then n = s.drawCount else v = Config.freeHostRead s.drawCount ∧ n = s.drawCount + 1)

/-- R37: the fields of STATUS, and its reserved bits. -/
def Obligations.StatusFields : Prop :=
  ∀ s : State,
    (statusWord s).extractLsb' 0 1 = (if s.phase = .idle then 0 else 1)
      ∧ (statusWord s).extractLsb' 1 1 = (if s.done then 1 else 0)
      ∧ (statusWord s).extractLsb' 2 4 = s.err
      ∧ (statusWord s).extractLsb' 6 1 = (if s.pvalid then 1 else 0)
      ∧ (statusWord s).extractLsb' 7 1 = (if s.proto = .plantowerPM then 0 else 1)
      ∧ (statusWord s).extractLsb' 8 1 = (if s.fvalid then 1 else 0)
      ∧ (statusWord s).extractLsb' 9 1 = (if s.fproto = .plantowerPM then 0 else 1)
      ∧ (statusWord s).extractLsb' 10 1 = (if s.rvalid then 1 else 0)
      ∧ (statusWord s).extractLsb' 11 1 = (if s.hasCounts then 1 else 0)
      ∧ (statusWord s).extractLsb' 12 4 = 0

/-- R72: a byte that arrives, at any moment, is appended at the tail; nothing else changes. -/
def Obligations.ArrivalAppendsAtTheTail : Prop :=
  ∀ (s : State) (b : Byte) (rest : List AgentAction), s.agenda = .arrive b :: rest →
    step s = .next { s with agenda := rest, source := s.source ++ [b] }

/-- R71: the transport's draw for the read-exact to come, made at any moment, changes nothing but the draw that is held.
That the draw is made ahead and held until a read-exact spends it is the model's choice: notes/assumptions/2.md (DEDUCED). -/
def Obligations.ShortReadDrawOnlySetsTheDraw : Prop :=
  ∀ (s : State) (k : Nat) (rest : List AgentAction), s.agenda = .failRead k :: rest →
    step s = .next { s with agenda := rest, readDraw := some k }

/-- A second consumer of the byte source is refused: the spec gives such a system no meaning (R80, R307) and U2 of
93_implementation_defined.md asks a model to refuse it. That it is refused in every state, an idle core's included, which is
more than R307 asks, is the model's choice: notes/assumptions/10.md (DEDUCED). -/
def Obligations.SecondConsumerIsRefused : Prop :=
  ∀ (s : State) (rest : List AgentAction), s.agenda = .foreignPop :: rest → step s = .refused .foreignConsumer

/-- R300, R301, R302: reset, at any moment, puts every register of the core to zero and PHASE to IDLE, and leaves the byte
source (and what the other agents hold) as it was. -/
def Obligations.ResetClearsTheCoreOnly : Prop :=
  ∀ (s : State) (rest : List AgentAction), s.agenda = .reset :: rest →
    step s = .next
      { reading := ⟨0, 0, 0, 0, 0, 0, 0, 0, 0, 0, 0, 0, 0, 0, 0, 0, 0, 0, 0⟩, phase := .idle, cmdl := 0, done := false
        err := 0, pvalid := false, proto := .plantowerPM, fvalid := false, fproto := .plantowerPM, rvalid := false
        hasCounts := false, operand := 0, result := 0, dcnt := 0, acc := 0, frame := []
        source := s.source, readDraw := s.readDraw, agenda := rest, readData := s.readData
        drawCount := s.drawCount }

/-- R301: the state after reset: every register zero, every byte of FRAME zero, STATUS = 0. -/
def Obligations.ResetValues : Prop :=
  let r := State.reset
  r.reading = ⟨0, 0, 0, 0, 0, 0, 0, 0, 0, 0, 0, 0, 0, 0, 0, 0, 0, 0, 0⟩ ∧ r.phase = .idle ∧ r.cmdl = 0
    ∧ r.done = false ∧ r.err = 0 ∧ r.pvalid = false ∧ r.proto = .plantowerPM ∧ r.fvalid = false
    ∧ r.fproto = .plantowerPM ∧ r.rvalid = false ∧ r.hasCounts = false ∧ r.operand = 0 ∧ r.result = 0
    ∧ r.dcnt = 0 ∧ r.acc = 0 ∧ (∀ a : Nat, Memory.read r.frame a = 0x00) ∧ statusWord r = 0

/-! ### Issue and the steps of the commands -/

/-- R285: the issue of each command by an idle core: the word is latched, DONE, ERR and the flags of what the command is
about to produce are cleared, PHASE goes to the command's first step; DECODE without a validated frame ends at once with
ERR = 14 (R269); a word that is not legal, written to CMD, only sets DONE and ERR = 15. -/
def Obligations.IssueOfEveryCommand : Prop :=
  (∀ s : State, s.phase = .idle →
    exec .sync s = .next { s with cmdl := 0x01, done := false, err := 0, pvalid := false, dcnt := 0, phase := .scan }
      ∧ exec .validateP s = .next { s with cmdl := 0x02, done := false, err := 0, fvalid := false, phase := .avail }
      ∧ exec .validateC s = .next { s with cmdl := 0x0A, done := false, err := 0, fvalid := false, phase := .avail }
      ∧ (s.fvalid = true →
          exec .decode s = .next { s with cmdl := 0x03, done := false, err := 0, rvalid := false, phase := .dec })
      ∧ (s.fvalid = false →
          exec .decode s = .next { s with cmdl := 0x03, done := true, err := 14, rvalid := false })
      ∧ exec .aqiPm25Us s = .next { s with cmdl := 0x04, done := false, err := 0, phase := .aqi1 }
      ∧ exec .aqiPm10Us s = .next { s with cmdl := 0x14, done := false, err := 0, phase := .aqi1 }
      ∧ exec .aqiPm25Cn s = .next { s with cmdl := 0x24, done := false, err := 0, phase := .aqi1 }
      ∧ exec .aqiPm10Cn s = .next { s with cmdl := 0x34, done := false, err := 0, phase := .aqi1 }
      ∧ exec .read s = .next
          { s with cmdl := 0x05, done := false, err := 0, pvalid := false, dcnt := 0, fvalid := false
                   rvalid := false, phase := .scan })
    ∧ ∀ (s : State) (w : Byte) (rest : List AgentAction), s.phase = .idle →
        s.agenda = .hostWrite 0x00 (w.setWidth 32) :: rest → legalWord w = false →
        step s = .next { s with agenda := rest, done := true, err := 15 }

/-- R131: the SCAN step of SYNC and of READ, every arm: the spent budget before any peek, the empty byte source, the two
markers (not consumed), any other byte (consumed, discarded, counted). Nothing else changes. -/
def Obligations.ScanStepOfSyncAndRead : Prop :=
  ∀ s : State, s.phase = .scan →
    (∀ i ∈ [Instr.sync, Instr.read], s.dcnt = 32 →
        exec i s = .next { s with err := 1, done := true, phase := .idle })
      ∧ (∀ i ∈ [Instr.sync, Instr.read], s.dcnt ≠ 32 → s.source = [] →
        exec i s = .next { s with err := 2, done := true, phase := .idle })
      ∧ (∀ (b : Byte) (q : List Byte), s.dcnt ≠ 32 → s.source = b :: q → b = 0x42 →
        exec .sync s = .next { s with proto := .plantowerPM, pvalid := true, err := 0, done := true, phase := .idle }
          ∧ exec .read s = .next { s with proto := .plantowerPM, pvalid := true, phase := .avail })
      ∧ (∀ (b : Byte) (q : List Byte), s.dcnt ≠ 32 → s.source = b :: q → b = 0x16 →
        exec .sync s = .next { s with proto := .cubicPM1006, pvalid := true, err := 0, done := true, phase := .idle }
          ∧ exec .read s = .next { s with proto := .cubicPM1006, pvalid := true, phase := .avail })
      ∧ (∀ i ∈ [Instr.sync, Instr.read], ∀ (b : Byte) (q : List Byte), s.dcnt ≠ 32 → s.source = b :: q →
        b ≠ 0x42 → b ≠ 0x16 → exec i s = .next { s with source := q, dcnt := s.dcnt + 1 })

/-- R152, R154: the AVAIL step of VALIDATE.P, VALIDATE.C and READ: one test of the count against 32 or 20. -/
def Obligations.AvailStepTestsTheFrameLength : Prop :=
  ∀ (s : State) (i : Instr) (vp : ProtocolKind), s.phase = .avail → validatesUnder i vp s →
    exec i s = .next
      (if (match vp with | .plantowerPM => 32 | .cubicPM1006 => 20) ≤ s.source.length
        then { s with phase := .xfer }
        else { s with err := 3, done := true, phase := .idle })

/-- R70: the port's saturation at `2^AVAIL_W − 1` never changes the AVAIL step, for any width from 6 bits up. -/
def Obligations.AvailableCountMaySaturate : Prop :=
  ∀ (w : Nat) (s : State) (i : Instr) (vp : ProtocolKind), 6 ≤ w → s.phase = .avail → validatesUnder i vp s →
    exec i s = .next
      (if frameLength vp ≤ srcAvailSaturated w s.source then { s with phase := .xfer }
        else { s with err := 3, done := true, phase := .idle })

/-- R153, R71: the XFER step of VALIDATE.P, VALIDATE.C and READ. An answered read-exact puts the `n` oldest bytes into
`FRAME[0..n)` in arrival order and 0x00 into the rest, and removes them; an answer `short(k)`, possible only if
SRC_MAY_FAIL (which is left open) and only for `k < n`, loses `k` bytes and leaves FRAME and ACC. `n` is 32 or 20. That a draw
`k` not below `n`, and any draw where SRC_MAY_FAIL is false, stands for the answer `ok` is the model's choice:
notes/assumptions/2.md (DEDUCED). -/
def Obligations.XferStepMovesTheFrame : Prop :=
  ∀ (s : State) (i : Instr) (vp : ProtocolKind), s.phase = .xfer → validatesUnder i vp s →
    frameLength vp ≤ s.source.length → Memory.wf s.frame = true →
    ∃ f : Memory, Memory.wf f = true
      ∧ (∀ a : Nat, a < frameLength vp → some (Memory.read f a) = s.source[a]?)
      ∧ (∀ a : Nat, frameLength vp ≤ a → Memory.read f a = 0x00)
      ∧ let answered :=
          { s with frame := f, source := s.source.drop (frameLength vp), readDraw := none, phase := Phase.check }
        (s.readDraw = none → exec i s = .next answered)
          ∧ (∀ k, s.readDraw = some k → frameLength vp ≤ k → exec i s = .next answered)
          ∧ (∀ k, s.readDraw = some k → k < frameLength vp →
            exec i s = .next (if Config.srcMayFail = true
              then { s with source := s.source.drop k, readDraw := none, err := 4, done := true, phase := .idle }
              else answered))

/-- R155, R156: what the header check holds of FRAME. -/
def Obligations.HeaderCheckComparesTheHeaderBytes : Prop :=
  ∀ m : Memory,
    (headerOk .plantowerPM m = true ↔ Memory.read m 0 = 0x42 ∧ Memory.read m 1 = 0x4D)
      ∧ (headerOk .cubicPM1006 m = true ↔
        Memory.read m 0 = 0x16 ∧ Memory.read m 1 = 0x11 ∧ Memory.read m 2 = 0x0B)

/-- R158, R159: the two sums and when each passes. -/
def Obligations.ChecksumsAreAdditive : Prop :=
  ∀ m : Memory,
    (frameSum .plantowerPM m).toNat = (∑ a ∈ Finset.range 30, (Memory.read m a).toNat) % 65536
      ∧ (checksumOk .plantowerPM m = true ↔
        (frameSum .plantowerPM m).toNat = (Memory.read m 30).toNat * 256 + (Memory.read m 31).toNat)
      ∧ (frameSum .cubicPM1006 m).toNat = (∑ a ∈ Finset.range 20, (Memory.read m a).toNat) % 256
      ∧ (checksumOk .cubicPM1006 m = true ↔ (∑ a ∈ Finset.range 20, (Memory.read m a).toNat) % 256 = 0)

/-- R157: the CHECK step of VALIDATE.P, VALIDATE.C and READ: BadHeader with ACC not written; BadChecksum with ACC written;
or FVALID, FPROTO and ACC written, VALIDATE done, READ on to DEC. Nothing is consumed, FRAME is unchanged. -/
def Obligations.CheckStepHeaderThenSum : Prop :=
  ∀ (s : State) (i : Instr) (vp : ProtocolKind), s.phase = .check → validatesUnder i vp s →
    (headerOk vp s.frame = false → exec i s = .next { s with err := 5, done := true, phase := .idle })
      ∧ (headerOk vp s.frame = true → checksumOk vp s.frame = false →
        exec i s = .next { s with acc := frameSum vp s.frame, err := 6, done := true, phase := .idle })
      ∧ (headerOk vp s.frame = true → checksumOk vp s.frame = true → i ≠ .read →
        exec i s = .next
          { s with acc := frameSum vp s.frame, fvalid := true, fproto := vp, err := 0, done := true, phase := .idle })
      ∧ (headerOk vp s.frame = true → checksumOk vp s.frame = true → i = .read →
        exec i s = .next { s with acc := frameSum vp s.frame, fvalid := true, fproto := vp, phase := .dec })

/-- R182: the DEC step of DECODE and READ on a PlantowerPM frame: field `k` is the big-endian pair at bytes `2k+2`, `2k+3`. -/
def Obligations.DecStepOfAPlantowerFrame : Prop :=
  ∀ (s : State) (i : Instr), i = .decode ∨ i = .read → s.phase = .dec → s.fproto = .plantowerPM →
    let be := fun a => BitVec.ofNat 16 ((Memory.read s.frame a).toNat * 256 + (Memory.read s.frame (a + 1)).toNat)
    exec i s = .next
      { s with
        reading :=
          { s.reading with
            frameLen := be 2, pm1Std := be 4, pm25Std := be 6, pm10Std := be 8, pm1Env := be 10, pm25Env := be 12
            pm10Env := be 14, cnt03 := be 16, cnt05 := be 18, cnt10 := be 20, cnt25 := be 22, cnt50 := be 24
            cnt100 := be 26, rsvd := be 28, checksum := be 30 }
        hasCounts := true, phase := .conv }

/-- R183: the DEC step of DECODE and READ on a CubicPM1006 frame: PM25_ENV from bytes 5, 6, every other field 0. -/
def Obligations.DecStepOfACubicFrame : Prop :=
  ∀ (s : State) (i : Instr), i = .decode ∨ i = .read → s.phase = .dec → s.fproto = .cubicPM1006 →
    exec i s = .next
      { s with
        reading :=
          { s.reading with
            frameLen := 0, pm1Std := 0, pm25Std := 0, pm10Std := 0, pm1Env := 0, pm10Env := 0, cnt03 := 0, cnt05 := 0
            cnt10 := 0, cnt25 := 0, cnt50 := 0, cnt100 := 0, rsvd := 0, checksum := 0
            pm25Env := BitVec.ofNat 16 ((Memory.read s.frame 5).toNat * 256 + (Memory.read s.frame 6).toNat) }
        hasCounts := false, phase := .conv }

/-- R186, R187: the CONV step of DECODE and READ: the four scores from PM25_ENV and PM10_ENV taken as exact integers, RVALID,
and the command's end. -/
def Obligations.ConvStepFillsTheScores : Prop :=
  ∀ (s : State) (i : Instr), i = .decode ∨ i = .read → s.phase = .conv →
    exec i s = .next
      { s with
        reading :=
          { s.reading with
            aqiPm25Us := BitVec.ofNat 32 (aqi .pm25 .us (.finite (s.reading.pm25Env.toNat : ℚ)))
            aqiPm10Us := BitVec.ofNat 32 (aqi .pm10 .us (.finite (s.reading.pm10Env.toNat : ℚ)))
            aqiPm25Cn := BitVec.ofNat 32 (aqi .pm25 .china (.finite (s.reading.pm25Env.toNat : ℚ)))
            aqiPm10Cn := BitVec.ofNat 32 (aqi .pm10 .china (.finite (s.reading.pm10Env.toNat : ℚ))) }
        rvalid := true, err := 0, done := true, phase := .idle }

/-- R214: the AQI1 step of each of the four standalone commands writes RESULT and ends the command; nothing else changes. -/
def Obligations.Aqi1StepWritesResult : Prop :=
  ∀ s : State, s.phase = .aqi1 →
    let ends := fun n : Nat => { s with result := BitVec.ofNat 32 n, err := 0, done := true, phase := Phase.idle }
    exec .aqiPm25Us s = .next (ends (aqi .pm25 .us (operandValue s.operand)))
      ∧ exec .aqiPm10Us s = .next (ends (aqi .pm10 .us (operandValue s.operand)))
      ∧ exec .aqiPm25Cn s = .next (ends (aqi .pm25 .china (operandValue s.operand)))
      ∧ exec .aqiPm10Cn s = .next (ends (aqi .pm10 .china (operandValue s.operand)))

/-- Where a meaning stops, by name: at a phase outside the command's flow, and at a read-exact whose precondition is broken.
The model's choice for states no run reaches: notes/assumptions/6.md. -/
def Obligations.StopsOutsideTheFlow : Prop :=
  (∀ (s : State) (i : Instr), s.phase ≠ .idle → inFlow i s.phase = false → exec i s = .fault .phaseOutsideCommand)
    ∧ ∀ (s : State) (i : Instr) (vp : ProtocolKind), s.phase = .xfer → validatesUnder i vp s →
        s.source.length < frameLength vp → exec i s = .fault .readExactUnderflow

/-! ### The converter (43_aqi.md) -/

/-- R201: the value of OPERAND, sign, exponent and fraction taken by division and remainder. -/
def Obligations.OperandIsBinary32 : Prop :=
  ∀ w : Word,
    let sg : ℕ := w.toNat / 2 ^ 31
    let e : ℕ := w.toNat / 2 ^ 23 % 256
    let m : ℕ := w.toNat % 2 ^ 23
    operandValue w =
      if e = 255 then (if m ≠ 0 then .nan else if sg = 0 then .posInf else .negInf)
      else if e = 0 then .finite ((-1 : ℚ) ^ sg * (m : ℚ) * (2 : ℚ) ^ (-149 : ℤ))
      else .finite ((-1 : ℚ) ^ sg * ((2 ^ 23 + m : ℕ) : ℚ) * (2 : ℚ) ^ ((e : ℤ) - 150))

/-- R213: −inf gives 0, +inf and every NaN give 99999, negative zero and every subnormal of either sign give 0. -/
def Obligations.SpecialOperands : Prop :=
  ∀ (p : Pollutant) (d : Standard) (w : Word),
    (w = 0xFF800000 → aqi p d (operandValue w) = 0)
      ∧ (w = 0x7F800000 → aqi p d (operandValue w) = 99999)
      ∧ (w.toNat / 2 ^ 23 % 256 = 255 → w.toNat % 2 ^ 23 ≠ 0 → aqi p d (operandValue w) = 99999)
      ∧ (w.toNat / 2 ^ 23 % 256 = 0 → aqi p d (operandValue w) = 0)

/-- R203 to R207: the breakpoint ROM by table number, each band as (cl10, ch10, aqi_low, aqi_high), concentrations in tenths. -/
def Obligations.BreakpointRomHoldsTheSpecsRows : Prop :=
  Config.aqiTable 0
      = [⟨0, 121, 0, 50⟩, ⟨121, 355, 51, 100⟩, ⟨355, 555, 101, 150⟩, ⟨555, 1505, 151, 200⟩, ⟨1505, 2505, 201, 300⟩,
          ⟨2505, 3505, 301, 400⟩, ⟨3505, 5005, 401, 500⟩]
    ∧ Config.aqiTable 1
      = [⟨0, 550, 0, 50⟩, ⟨550, 1550, 51, 100⟩, ⟨1550, 2550, 101, 150⟩, ⟨2550, 3550, 151, 200⟩, ⟨3550, 4250, 201, 300⟩,
          ⟨4250, 5050, 301, 400⟩, ⟨5050, 6050, 401, 500⟩]
    ∧ Config.aqiTable 2
      = [⟨0, 350, 0, 50⟩, ⟨350, 750, 51, 100⟩, ⟨750, 1150, 101, 150⟩, ⟨1150, 1500, 151, 200⟩, ⟨1500, 2500, 201, 300⟩,
          ⟨2500, 3500, 301, 400⟩, ⟨3500, 5000, 401, 500⟩]
    ∧ Config.aqiTable 3
      = [⟨0, 500, 0, 50⟩, ⟨500, 1500, 51, 100⟩, ⟨1500, 2500, 101, 150⟩, ⟨2500, 3500, 151, 200⟩, ⟨3500, 4200, 201, 300⟩,
          ⟨4200, 5000, 301, 400⟩, ⟨5000, 6000, 401, 500⟩]

/-- R204, R205 and R208 to R212, the US tables, each row (conc_low, conc_high, aqi_low, aqi_high) as the spec writes it: below
0 the score is 0; in a band `conc_low ≤ c' < conc_high` it is the interpolation rounded half up; at the top and above it is
99999. `c'` is truncated to one decimal for PM2.5 and for nothing else. -/
def Obligations.UsScores : Prop :=
  ∀ (p : Pollutant) (c : ℚ),
    let c' : ℚ := match p with | .pm25 => (⌊10 * c⌋ : ℚ) / 10 | .pm10 => c
    let rows : List (ℚ × ℚ × ℚ × ℚ) := match p with
      | .pm25 =>
        [(0, 12.1, 0, 50), (12.1, 35.5, 51, 100), (35.5, 55.5, 101, 150), (55.5, 150.5, 151, 200),
          (150.5, 250.5, 201, 300), (250.5, 350.5, 301, 400), (350.5, 500.5, 401, 500)]
      | .pm10 =>
        [(0, 55, 0, 50), (55, 155, 51, 100), (155, 255, 101, 150), (255, 355, 151, 200), (355, 425, 201, 300),
          (425, 505, 301, 400), (505, 605, 401, 500)]
    let top : ℚ := match p with | .pm25 => 500.5 | .pm10 => 605
    (c < 0 → aqi p .us (.finite c) = 0)
      ∧ (∀ lo hi al ah : ℚ, (lo, hi, al, ah) ∈ rows → lo ≤ c' → c' < hi →
        (aqi p .us (.finite c) : ℤ) = ⌊(c' - lo) / (hi - lo) * (ah - al) + al + 1 / 2⌋)
      ∧ (top ≤ c' → aqi p .us (.finite c) = 99999)

/-- R206 to R212, the China tables, each row (conc_low, conc_high, aqi_low, aqi_high) as the spec writes it: below 0 the score
is 0; in the first closed band that matches, that is `conc_low < c ≤ conc_high` or band 1 at 0, it is the interpolation
rounded half up; above the top it is 99999. Nothing is truncated. -/
def Obligations.ChinaScores : Prop :=
  ∀ (p : Pollutant) (c : ℚ),
    let rows : List (ℚ × ℚ × ℚ × ℚ) := match p with
      | .pm25 =>
        [(0, 35, 0, 50), (35, 75, 51, 100), (75, 115, 101, 150), (115, 150, 151, 200), (150, 250, 201, 300),
          (250, 350, 301, 400), (350, 500, 401, 500)]
      | .pm10 =>
        [(0, 50, 0, 50), (50, 150, 51, 100), (150, 250, 101, 150), (250, 350, 151, 200), (350, 420, 201, 300),
          (420, 500, 301, 400), (500, 600, 401, 500)]
    let top : ℚ := match p with | .pm25 => 500 | .pm10 => 600
    (c < 0 → aqi p .china (.finite c) = 0)
      ∧ (∀ lo hi al ah : ℚ, (lo, hi, al, ah) ∈ rows → (lo < c ∨ lo = 0 ∧ c = 0) → c ≤ hi →
        (aqi p .china (.finite c) : ℤ) = ⌊(c - lo) / (hi - lo) * (ah - al) + al + 1 / 2⌋)
      ∧ (top < c → aqi p .china (.finite c) = 99999)

/-- R220: each score is non-decreasing in the concentration. It holds of the machine's ROM because it holds of every
well-formed ROM whose scores do not exceed the sentinel. -/
def Obligations.ScoresAreMonotone : Prop :=
  (∀ rom : Nat → List Config.Band,
      (∀ t < 4, Config.tableWellFormed (rom t) = true ∧ ∀ b ∈ rom t, b.ah ≤ 99999) →
      ∀ (p : Pollutant) (d : Standard) (c e : ℚ), c ≤ e → aqiWith rom p d (.finite c) ≤ aqiWith rom p d (.finite e))
    ∧ ∀ (p : Pollutant) (d : Standard) (c e : ℚ), c ≤ e → aqi p d (.finite c) ≤ aqi p d (.finite e)

/-- A conversion returns 0 to 500 or 99999, whatever the operand, and both ends are returned (R221). -/
def Obligations.ScoresLieInTheResultSet : Prop :=
  (∀ (p : Pollutant) (d : Standard) (c : Conc), aqi p d c ≤ 500 ∨ aqi p d c = 99999)
    ∧ ∀ (p : Pollutant) (d : Standard),
        (∃ c : ℚ, aqi p d (.finite c) = 500) ∧ ∃ c : ℚ, aqi p d (.finite c) = 99999

/-- R222: where `c'`, the operand truncated as R208 says, is `n` tenths, the score of the selected band is one integer
division, and the band tests are tests on `n`. -/
def Obligations.IntegerFormForTenths : Prop :=
  ∀ (p : Pollutant) (d : Standard) (c : ℚ) (n : Nat) (b : Config.Band),
    (if p = .pm25 ∧ d = .us then (⌊10 * c⌋ : ℚ) / 10 else c) = (n : ℚ) / 10 →
    (Config.aqiTable (tableNumber p d)).find?
        (fun b => match d with
          | .us => decide (b.cl10 ≤ n) && decide (n < b.ch10)
          | .china => decide (b.cl10 ≤ n) && decide (n ≤ b.ch10)) = some b →
    aqi p d (.finite c)
      = (2 * (n - b.cl10) * (b.ah - b.al) + (2 * b.al + 1) * (b.ch10 - b.cl10)) / (2 * (b.ch10 - b.cl10))

/-! ### The checksums (41_validate.md) -/

/-- R160: the PlantowerPM sum never wraps, a frame whose wire checksum exceeds 7650 never passes, the CubicPM1006 sum is at
most 5100, and neither sum sees the order of the bytes it adds (two of them exchanged). -/
def Obligations.LawsOfTheSums : Prop :=
  ∀ m : Memory,
    (frameSum .plantowerPM m).toNat = ∑ a ∈ Finset.range 30, (Memory.read m a).toNat
      ∧ (frameSum .plantowerPM m).toNat ≤ 7650
      ∧ (7650 < (Memory.read m 30).toNat * 256 + (Memory.read m 31).toNat → checksumOk .plantowerPM m = false)
      ∧ ∑ a ∈ Finset.range 20, (Memory.read m a).toNat ≤ 5100
      ∧ (Memory.wf m = true → ∀ i j : Nat, i < 30 → j < 30 →
        frameSum .plantowerPM
          (Memory.write (Memory.write m i (Memory.read m j)) j (Memory.read m i)) = frameSum .plantowerPM m)
      ∧ (Memory.wf m = true → ∀ i j : Nat, i < 20 → j < 20 →
        frameSum .cubicPM1006
          (Memory.write (Memory.write m i (Memory.read m j)) j (Memory.read m i)) = frameSum .cubicPM1006 m)

/-- R162: one bit flipped anywhere in a PlantowerPM frame that passes makes validation fail: with BadHeader in bytes 0 and 1,
with BadChecksum in bytes 2 to 31. -/
def Obligations.SingleBitErrorsOfPlantowerFrames : Prop :=
  ∀ (s : State) (i k : Nat), s.phase = .check → Memory.wf s.frame = true → headerOk .plantowerPM s.frame = true →
    checksumOk .plantowerPM s.frame = true → i < 32 → k < 8 →
    ∃ t, exec .validateP { s with frame := flipBit s.frame i k } = .next t
      ∧ t.err = (if i < 2 then 5 else 6) ∧ t.done = true ∧ t.phase = .idle ∧ t.fvalid = s.fvalid

/-- R163: one bit flipped anywhere in a CubicPM1006 frame that passes makes validation fail: with BadHeader in bytes 0 to 2,
with BadChecksum in bytes 3 to 19. -/
def Obligations.SingleBitErrorsOfCubicFrames : Prop :=
  ∀ (s : State) (i k : Nat), s.phase = .check → Memory.wf s.frame = true → headerOk .cubicPM1006 s.frame = true →
    checksumOk .cubicPM1006 s.frame = true → i < 20 → k < 8 →
    ∃ t, exec .validateC { s with frame := flipBit s.frame i k } = .next t
      ∧ t.err = (if i < 3 then 5 else 6) ∧ t.done = true ∧ t.phase = .idle ∧ t.fvalid = s.fvalid

/-! ### Whole commands, the transport taking no step meanwhile -/

/-- R135: SYNC from issue to end, `g` the number of bytes before the first marker: the marker found within 32 discards,
the budget spent, or the byte source run dry. Everything else is as before. -/
def Obligations.SyncRunsToItsEnd : Prop :=
  ∀ s : State, s.phase = .idle → s.agenda = [.hostWrite 0x00 0x01] →
    let g := garbage s.source
    (∀ (b : Byte) (q : List Byte) (p : ProtocolKind), g ≤ 31 → s.source.drop g = b :: q → markerOf b = some p →
        runSteps 34 s = .next
          { s with agenda := [], cmdl := 0x01, done := true, err := 0, pvalid := true, proto := p
                   dcnt := BitVec.ofNat 6 g, source := b :: q })
      ∧ (32 ≤ g → runSteps 34 s = .next
          { s with agenda := [], cmdl := 0x01, done := true, err := 1, pvalid := false, dcnt := 32
                   source := s.source.drop 32 })
      ∧ (g ≤ 31 → s.source.length = g → runSteps 34 s = .next
          { s with agenda := [], cmdl := 0x01, done := true, err := 2, pvalid := false, dcnt := BitVec.ofNat 6 g
                   source := [] })

/-- R150, R151, R164, R165: VALIDATE.P and VALIDATE.C from issue to end: Incomplete with nothing consumed, or `n` bytes
consumed and BadHeader, BadChecksum or success, with what each leaves in FRAME and ACC. -/
def Obligations.ValidateRunsToItsEnd : Prop :=
  ∀ (s : State) (i : Instr) (vp : ProtocolKind),
    (i = .validateP ∧ vp = .plantowerPM) ∨ (i = .validateC ∧ vp = .cubicPM1006) →
    s.phase = .idle → s.agenda = [.hostWrite 0x00 ((encodeWord i).setWidth 32)] → s.readDraw = none →
    let n := frameLength vp
    let f := frameOf s.frame n s.source
    (s.source.length < n → runSteps 4 s = .next
        { s with agenda := [], cmdl := encodeWord i, done := true, err := 3, fvalid := false })
      ∧ (n ≤ s.source.length → headerOk vp f = false → runSteps 4 s = .next
        { s with agenda := [], cmdl := encodeWord i, done := true, err := 5, fvalid := false, frame := f
                 source := s.source.drop n })
      ∧ (n ≤ s.source.length → headerOk vp f = true → checksumOk vp f = false → runSteps 4 s = .next
        { s with agenda := [], cmdl := encodeWord i, done := true, err := 6, fvalid := false, frame := f
                 acc := frameSum vp f, source := s.source.drop n })
      ∧ (n ≤ s.source.length → headerOk vp f = true → checksumOk vp f = true → runSteps 4 s = .next
        { s with agenda := [], cmdl := encodeWord i, done := true, err := 0, fvalid := true, fproto := vp, frame := f
                 acc := frameSum vp f, source := s.source.drop n })

/-- R180, R189: DECODE from issue to end with a validated frame, and again: the Reading of the frame in FRAME both times. -/
def Obligations.DecodeRunsToItsEnd : Prop :=
  ∀ s : State, s.phase = .idle → s.fvalid = true →
    let t := { s with agenda := [], cmdl := 0x03, done := true, err := 0, rvalid := true
                      reading := readingOf s.fproto s.frame s.reading
                      hasCounts := decide (s.fproto = .plantowerPM) }
    (s.agenda = [.hostWrite 0x00 0x03] → runSteps 3 s = .next t)
      ∧ runSteps 3 { t with agenda := [.hostWrite 0x00 0x03] } = .next t

/-- R112, R215 to R218: a listing line `AQI.<P>.<S> <c>`: the two host writes, then the conversion. -/
def Obligations.AqiLineRunsToItsEnd : Prop :=
  ∀ (s : State) (v : Word) (i : Instr) (p : Pollutant) (d : Standard), i.pairOperand = some (p, d) → s.phase = .idle →
    s.agenda = [.hostWrite 0x02 v, .hostWrite 0x00 ((encodeWord i).setWidth 32)] →
    runSteps 3 s = .next
      { s with agenda := [], operand := v, cmdl := encodeWord i, done := true, err := 0
               result := BitVec.ofNat 32 (aqi p d (operandValue v)) }

/-- R242, R245: READ from issue to end, the transport drawing no short answer, `g` the number of bytes before the first
marker: every row but ShortRead, with everything each leaves (R34 for the flags). That NoStartByte and Starved leave PROTO as
it was is R34, R285 and R135 read over R30, the model's choice: notes/assumptions/11.md (DEDUCED). -/
def Obligations.ReadRunsToItsEnd : Prop :=
  ∀ s : State, s.phase = .idle → s.agenda = [.hostWrite 0x00 0x05] → s.readDraw = none →
    let g := garbage s.source
    (32 ≤ g → runSteps 39 s = .next
        { s with agenda := [], cmdl := 0x05, done := true, err := 1, pvalid := false, fvalid := false, rvalid := false
                 dcnt := 32, source := s.source.drop 32 })
      ∧ (g ≤ 31 → s.source.length = g → runSteps 39 s = .next
        { s with agenda := [], cmdl := 0x05, done := true, err := 2, pvalid := false, fvalid := false, rvalid := false
                 dcnt := BitVec.ofNat 6 g, source := [] })
      ∧ ∀ (b : Byte) (q : List Byte) (p : ProtocolKind), g ≤ 31 → s.source.drop g = b :: q → markerOf b = some p →
        let n := frameLength p
        let f := frameOf s.frame n (b :: q)
        let found := { s with agenda := [], cmdl := 0x05, done := true, pvalid := true, proto := p, fvalid := false
                              rvalid := false, dcnt := BitVec.ofNat 6 g }
        ((b :: q).length < n → runSteps 39 s = .next { found with err := 3, source := b :: q })
          ∧ (n ≤ (b :: q).length → headerOk p f = false →
            runSteps 39 s = .next { found with err := 5, source := (b :: q).drop n, frame := f })
          ∧ (n ≤ (b :: q).length → headerOk p f = true → checksumOk p f = false →
            runSteps 39 s = .next
              { found with err := 6, source := (b :: q).drop n, frame := f, acc := frameSum p f })
          ∧ (n ≤ (b :: q).length → headerOk p f = true → checksumOk p f = true →
            runSteps 39 s = .next
              { found with err := 0, source := (b :: q).drop n, frame := f, acc := frameSum p f, fvalid := true
                           fproto := p, rvalid := true, reading := readingOf p f s.reading
                           hasCounts := decide (p = .plantowerPM) })

/-- R242, R165, R71: VALIDATE.P, VALIDATE.C and READ from issue to end where a draw `k` is pending and the command comes to its
read-exact. If SRC_MAY_FAIL (left open) and `k < n`, it is ShortRead: `k` bytes of the frame are lost, FRAME and ACC stay.
Otherwise the command ends as with no draw pending: that is how the model reads such a draw, notes/assumptions/2.md (DEDUCED). -/
def Obligations.ShortReadEndsValidateAndRead : Prop :=
  (∀ (s : State) (i : Instr) (vp : ProtocolKind) (k : Nat),
      (i = .validateP ∧ vp = .plantowerPM) ∨ (i = .validateC ∧ vp = .cubicPM1006) →
      s.phase = .idle → s.agenda = [.hostWrite 0x00 ((encodeWord i).setWidth 32)] → s.readDraw = some k →
      frameLength vp ≤ s.source.length →
      runSteps 4 s =
        if Config.srcMayFail = true ∧ k < frameLength vp then
          .next { s with agenda := [], cmdl := encodeWord i, done := true, err := 4, fvalid := false
                         source := s.source.drop k, readDraw := none }
        else runSteps 4 { s with readDraw := none })
    ∧ ∀ (s : State) (k : Nat), s.phase = .idle → s.agenda = [.hostWrite 0x00 0x05] → s.readDraw = some k →
      let g := garbage s.source
      ∀ (b : Byte) (q : List Byte) (p : ProtocolKind), g ≤ 31 → s.source.drop g = b :: q → markerOf b = some p →
        frameLength p ≤ (b :: q).length →
        runSteps 39 s =
          if Config.srcMayFail = true ∧ k < frameLength p then
            .next { s with agenda := [], cmdl := 0x05, done := true, err := 4, pvalid := true, proto := p
                           fvalid := false, rvalid := false, dcnt := BitVec.ofNat 6 g, source := (b :: q).drop k
                           readDraw := none }
          else runSteps 39 { s with readDraw := none }

/-- R304: SYNC, VALIDATE.P, VALIDATE.C and READ depend on no core state left by an earlier command. Two machines in any two
idle states, with the same byte source and the same draw, end the same command with the same error, the same byte source
and the same flags of what it is to produce; and with the same of everything that the command has written when it ends. -/
def Obligations.CommandsAreIndependentOfHistory : Prop :=
  ∀ (i : Instr) (s t : State), i = .sync ∨ i = .validateP ∨ i = .validateC ∨ i = .read →
    s.phase = .idle → t.phase = .idle → Memory.wf s.frame = true → Memory.wf t.frame = true →
    s.source = t.source → s.readDraw = t.readDraw →
    ∃ s' t',
      runSteps 39 { s with agenda := [.hostWrite 0x00 ((encodeWord i).setWidth 32)] } = .next s'
        ∧ runSteps 39 { t with agenda := [.hostWrite 0x00 ((encodeWord i).setWidth 32)] } = .next t'
        ∧ s'.err = t'.err ∧ s'.source = t'.source ∧ s'.done = true ∧ t'.done = true
        ∧ (i = .sync ∨ i = .read →
          s'.pvalid = t'.pvalid ∧ s'.dcnt = t'.dcnt ∧ (s'.pvalid = true → s'.proto = t'.proto))
        ∧ (i ≠ .sync →
          s'.fvalid = t'.fvalid ∧ (s'.fvalid = true → s'.fproto = t'.fproto)
            ∧ (s'.err = 0 ∨ s'.err = 5 ∨ s'.err = 6 → s'.frame = t'.frame)
            ∧ (s'.err = 0 ∨ s'.err = 6 → s'.acc = t'.acc))
        ∧ (i = .read →
          s'.rvalid = t'.rvalid
            ∧ (s'.rvalid = true → s'.reading = t'.reading ∧ s'.hasCounts = t'.hasCounts))

/-! ### Invariants and rules of the whole machine, for every interleaving -/

/-- The invariants hold at reset. -/
def Obligations.ResetSatisfiesTheInvariants : Prop := Inv State.reset ∧ MarkerKept State.reset

/-- Every step keeps the invariant: FRAME canonical, DCNT at most 32, ERR a produced code, a busy core inside the flow of a
legal command with DONE = 0 and with the flags of what it is still to produce at 0, enough bytes at every read-exact, a
validated frame at every decode, scores in every AQI register and in RESULT. -/
def Obligations.EveryStepKeepsTheInvariant : Prop :=
  ∀ s t : State, Inv s → step s = .next t → Inv t

/-- R241: whatever the transport and the host do between the steps of a READ, the marker the synchronizer matched is the
byte at the head of the byte source until XFER and then `FRAME[0]`, so that BadHeader can come only from a later byte. -/
def Obligations.TheMarkerIsKeptThroughARead : Prop :=
  (∀ s t : State, Inv s → MarkerKept s → step s = .next t → MarkerKept t)
    ∧ ∀ s : State, MarkerKept s → decodeWord s.cmdl = .ok .read → s.phase = .check →
        headerOk s.proto s.frame = false →
        (s.proto = .plantowerPM → Memory.read s.frame 1 ≠ 0x4D)
          ∧ (s.proto = .cubicPM1006 → Memory.read s.frame 1 ≠ 0x11 ∨ Memory.read s.frame 2 ≠ 0x0B)

/-- From a state of the invariant no step stops: every action but a second consumer's has a next state. -/
def Obligations.NoStepStops : Prop :=
  ∀ s : State, Inv s → (∀ rest, s.agenda ≠ .foreignPop :: rest) → ∃ t, step s = .next t

/-- R29: a step of the core advances PHASE only as the list of R29 says; while the core is busy an action of the transport
or of the host leaves PHASE as it is; reset makes it IDLE. -/
def Obligations.PhaseAdvancesOnlyAsListed : Prop :=
  ∀ s t : State, Inv s → s.phase ≠ .idle → step s = .next t →
    ((s.agenda = [] ∨ ∃ rest, s.agenda = .core :: rest) →
        ∃ i, decodeWord s.cmdl = .ok i ∧ phaseAdvance i.op s.phase t.phase = true)
      ∧ (∀ a rest, s.agenda = a :: rest → a ≠ .core → a ≠ .reset → t.phase = s.phase)
      ∧ (∀ rest, s.agenda = .reset :: rest → t.phase = .idle)

/-- R316: every command ends. A step of the core brings a busy machine strictly nearer to its end, whatever its byte source
holds; so with the core alone moving, 38 steps (33 of SCAN and 5 more) end any command, with DONE = 1. -/
def Obligations.EveryCommandEnds : Prop :=
  (∀ s t : State, Inv s → s.phase ≠ .idle → (s.agenda = [] ∨ ∃ rest, s.agenda = .core :: rest) →
      step s = .next t → stepsLeft t < stepsLeft s)
    ∧ (∀ s : State, stepsLeft s ≤ 38)
    ∧ ∀ s : State, Inv s → s.phase ≠ .idle → s.agenda = [] →
        ∃ t, runSteps 38 s = .next t ∧ t.phase = .idle ∧ t.done = true

/-- Who writes what (R21, R38, R39, R43, R48): the Reading registers change only in DEC and CONV, RESULT only in AQI1, FRAME
only in XFER, ACC only in CHECK, OPERAND only by the host while the core is idle; and all of them by reset. -/
def Obligations.EachRegisterHasItsWriter : Prop :=
  ∀ s t : State, step s = .next t → (∀ rest, s.agenda ≠ .reset :: rest) →
    (t.reading ≠ s.reading → s.phase = .dec ∨ s.phase = .conv)
      ∧ (t.result ≠ s.result → s.phase = .aqi1)
      ∧ (t.frame ≠ s.frame → s.phase = .xfer)
      ∧ (t.acc ≠ s.acc → s.phase = .check)
      ∧ (t.operand ≠ s.operand → s.phase = .idle ∧ ∃ v rest, s.agenda = .hostWrite 0x02 v :: rest ∧ t.operand = v)

/-- PROTO and the valid flags: PROTO and PVALID change only in SCAN, or PVALID at issue; FVALID and FPROTO only in CHECK, or
FVALID at issue (R31); RVALID rises only in CONV (R32), HAS_COUNTS changes only in DEC; and all of them by reset. That PROTO
keeps its value at the issue of SYNC and READ follows R34, R285 and R135 over R30's words "They are cleared", the model's
choice: notes/assumptions/11.md (DEDUCED). -/
def Obligations.FlagsChangeOnlyWhereStated : Prop :=
  ∀ s t : State, step s = .next t → (∀ rest, s.agenda ≠ .reset :: rest) →
    (t.proto ≠ s.proto → s.phase = .scan ∧ t.pvalid = true)
      ∧ (t.pvalid ≠ s.pvalid → s.phase = .scan ∧ t.pvalid = true ∨ s.phase = .idle ∧ t.pvalid = false)
      ∧ (t.fproto ≠ s.fproto → s.phase = .check ∧ t.fvalid = true)
      ∧ (t.fvalid ≠ s.fvalid → s.phase = .check ∧ t.fvalid = true ∨ s.phase = .idle ∧ t.fvalid = false)
      ∧ (t.rvalid ≠ s.rvalid → s.phase = .conv ∧ t.rvalid = true ∨ s.phase = .idle ∧ t.rvalid = false)
      ∧ (t.hasCounts ≠ s.hasCounts → s.phase = .dec)

/-- R73: the byte source is a queue. Bytes leave only from the head and only in SCAN (one byte, no marker) and XFER (at most
the frame length); they enter only at the tail, by arrival; nothing else touches it, reset included. -/
def Obligations.TheByteSourceIsAQueue : Prop :=
  ∀ s t : State, step s = .next t →
    t.source = s.source
      ∨ (∃ b rest, s.agenda = .arrive b :: rest ∧ t.source = s.source ++ [b])
      ∨ (s.phase = .scan ∧ ∃ b, s.source = b :: t.source ∧ b ≠ 0x42 ∧ b ≠ 0x16 ∧ t.dcnt = s.dcnt + 1)
      ∨ (s.phase = .xfer ∧ ∃ k ≤ 32, k ≤ s.source.length ∧ t.source = s.source.drop k)

/-- R33: once a command has been issued exactly one of BUSY and DONE is 1. A write to CMD by a host that finds the core idle
makes it so, and every step but a reset keeps it so. -/
def Obligations.ExactlyOneOfBusyAndDone : Prop :=
  (∀ (s t : State) (w : Byte) (rest : List AgentAction), s.phase = .idle →
      s.agenda = .hostWrite 0x00 (w.setWidth 32) :: rest → step s = .next t → (t.phase ≠ .idle ↔ t.done = false))
    ∧ ∀ s t : State, Inv s → (s.phase ≠ .idle ↔ s.done = false) → (∀ rest, s.agenda ≠ .reset :: rest) →
        step s = .next t → (t.phase ≠ .idle ↔ t.done = false)

/-- R27's remark that, while RVALID = 1, HAS_COUNTS = 1 exactly when FPROTO = 0, read as an invariant of the machine. It is
expected to FAIL: a VALIDATE of the other protocol writes FPROTO and clears only FVALID (R34), so RVALID and HAS_COUNTS of
the older Reading stay. The remark holds right after DECODE or READ (DecodeRunsToItsEnd, ReadRunsToItsEnd).
notes/assumptions/11.md. -/
def Obligations.HasCountsFollowsFprotoWhileRvalid : Prop :=
  ∀ s t : State, Inv s → (s.rvalid = true → (s.hasCounts = true ↔ s.fproto = .plantowerPM)) → step s = .next t →
    (t.rvalid = true → (t.hasCounts = true ↔ t.fproto = .plantowerPM))
end

