-- ==== Sys2Proof/Laws/Converter.lean ====
section
/-! SUPPORT. The converter's stages (43_aqi.md R208 to R212) and the tables the ROM holds. -/

namespace Sys2Proof.Machine

/-- The ROM's four tables have the form R203 gives them. -/
theorem aqiTable_wellFormed : ∀ t : Fin 4, Config.tableWellFormed (Config.aqiTable t) = true := by decide

theorem tableNumber_lt (p : Pollutant) (d : Standard) : tableNumber p d < 4 := by
  cases p <;> cases d <;> decide

@[simp] theorem aqi_nan (p : Pollutant) (d : Standard) : aqi p d .nan = 99999 := rfl
@[simp] theorem aqi_negInf (p : Pollutant) (d : Standard) : aqi p d .negInf = 0 := rfl
@[simp] theorem aqi_posInf (p : Pollutant) (d : Standard) : aqi p d .posInf = 99999 := rfl

theorem rnd_of_nonneg {x : ℚ} (h : 0 ≤ x) : rnd x = ⌊x + 1 / 2⌋ := if_pos h

/-- Truncation keeps the sign test (R212). -/
theorem truncTenth_neg_iff (c : ℚ) : truncTenth c < 0 ↔ c < 0 := by
  have e : truncTenth c < 0 ↔ (⌊10 * c⌋ : ℚ) < 0 := by
    unfold truncTenth
    constructor <;> intro h <;> linarith
  rw [e]
  have i : (⌊10 * c⌋ : ℚ) < 0 ↔ ⌊10 * c⌋ < 0 := by exact_mod_cast Iff.rfl
  rw [i, Int.floor_lt]
  constructor <;> intro h
  · have : (10 * c : ℚ) < 0 := by exact_mod_cast h
    linarith
  · have : (10 * c : ℚ) < 0 := by linarith
    exact_mod_cast this

/-- Truncation is non-decreasing (R220). -/
theorem truncTenth_mono {c d : ℚ} (h : c ≤ d) : truncTenth c ≤ truncTenth d := by
  unfold truncTenth
  have hf : ⌊10 * c⌋ ≤ ⌊10 * d⌋ := Int.floor_le_floor (by linarith)
  have hq : (⌊10 * c⌋ : ℚ) ≤ (⌊10 * d⌋ : ℚ) := by exact_mod_cast hf
  linarith

theorem adjusted_mono (p : Pollutant) (d : Standard) {c e : ℚ} (h : c ≤ e) : adjusted p d c ≤ adjusted p d e := by
  unfold adjusted
  split
  · exact truncTenth_mono h
  · exact h

/-- The three things `scoreIn` can answer (R212). -/
theorem scoreIn_cases (t : List Config.Band) (d : Standard) (c : ℚ) :
    (c < 0 ∧ scoreIn t d c = 0)
      ∨ (∃ b ∈ t, 0 ≤ c ∧ inBand d c b = true ∧ scoreIn t d c = (rnd (lin c b)).toNat)
      ∨ (0 ≤ c ∧ (∀ b ∈ t, inBand d c b = false) ∧ scoreIn t d c = 99999) := by
  unfold scoreIn
  by_cases hc : c < 0
  · exact .inl ⟨hc, if_pos hc⟩
  · rw [if_neg hc]
    cases hf : t.find? (inBand d c) with
    | some b =>
      exact .inr (.inl ⟨b, List.mem_of_find?_eq_some hf, not_lt.1 hc, List.find?_some hf, rfl⟩)
    | none =>
      refine .inr (.inr ⟨not_lt.1 hc, fun b hb => ?_, rfl⟩)
      have := List.find?_eq_none.1 hf b hb
      simpa using this

/-- What a band test says (R209). -/
theorem inBand_us {c : ℚ} {b : Config.Band} : inBand .us c b = true ↔ concLow b ≤ c ∧ c < concHigh b := by
  simp [inBand]

theorem inBand_china {c : ℚ} {b : Config.Band} :
    inBand .china c b = true ↔ concLow b ≤ c ∧ c ≤ concHigh b := by simp [inBand]

end Sys2Proof.Machine
end

