-- ==== Sys2Proof/Laws/Decode.lean ====
section
/-! SUPPORT. The decoder and the encoder against each other and against the checks of Sys2Proof/WellFormed.lean. -/

namespace Sys2Proof

theorem instr_wellFormed (i : Instr) : i.wellFormed = true := by cases i <;> rfl

@[simp] theorem decodeWord_encodeWord (i : Instr) : decodeWord (encodeWord i) = .ok i := by cases i <;> rfl

theorem encodeFields_wellFormed (i : Instr) : (encodeFields i).wellFormed = true := by cases i <;> rfl

theorem splitWord_joinWord (c : CmdWord) : splitWord (joinWord c) = c := by
  obtain ⟨r, s, q, p, o⟩ := c
  simp only [splitWord, joinWord, CmdWord.mk.injEq]
  refine ⟨?_, ?_, ?_, ?_, ?_⟩ <;> (revert r s q p o; decide)

/-- What the decoder says of a word is what the field checks say of it (R106). -/
theorem legalWord_eq_wellFormed (w : Byte) : legalWord w = (splitWord w).wellFormed := by
  revert w
  decide

theorem encodeWord_of_decodeWord_table :
    ∀ w : Byte, (match decodeWord w with | .ok i => encodeWord i == w | .error _ => true) = true := by
  decide

/-- A word that decodes is the word of the command it decodes to. -/
theorem encodeWord_of_decodeWord {w : Byte} {i : Instr} (h : decodeWord w = .ok i) : encodeWord i = w := by
  have t := encodeWord_of_decodeWord_table w
  rw [h] at t
  exact eq_of_beq t

end Sys2Proof
end

