-- ==== Sys2Proof/Laws/Memory.lean ====
section
/-! SUPPORT. The frame buffer as memory: read after write, and every operation keeps the canonical form. -/

namespace Sys2Proof.Machine

@[simp] theorem Memory.read_nil (a : Nat) : Memory.read [] a = 0x00 := rfl

theorem Memory.read_cons (x : Nat) (b : Byte) (m : Memory) (a : Nat) :
    Memory.read ((x, b) :: m) a = if x = a then b else Memory.read m a := rfl

/-- Every index listed is above `a`. -/
def Memory.above (a : Nat) (m : Memory) : Prop := ∀ c ∈ m, a < c.1

theorem Memory.read_above {a : Nat} {m : Memory} (h : Memory.above a m) : Memory.read m a = 0x00 := by
  induction m with
  | nil => rfl
  | cons c m ih =>
    obtain ⟨x, b⟩ := c
    have hx : a < x := h (x, b) (by simp)
    rw [Memory.read_cons, if_neg (by omega)]
    exact ih fun c hc => h c (by simp [hc])

theorem Memory.sorted_cons {x : Nat} {b : Byte} {m : Memory} :
    Memory.sorted ((x, b) :: m) = true ↔ Memory.above x m ∧ Memory.sorted m = true := by
  induction m generalizing x b with
  | nil => simp [Memory.sorted, Memory.above]
  | cons c m ih =>
    obtain ⟨y, d⟩ := c
    constructor
    · intro h
      simp only [Memory.sorted, Bool.and_eq_true, decide_eq_true_eq] at h
      refine ⟨?_, h.2⟩
      intro c hc
      rcases List.mem_cons.1 hc with rfl | hc
      · exact h.1
      · exact lt_trans h.1 ((ih.1 h.2).1 c hc)
    · intro h
      simp only [Memory.sorted, Bool.and_eq_true, decide_eq_true_eq]
      exact ⟨h.1 (y, d) (by simp), h.2⟩

/-- The canonical form, one entry at a time. -/
theorem Memory.wf_cons {x : Nat} {b : Byte} {m : Memory} :
    Memory.wf ((x, b) :: m) = true ↔ Memory.above x m ∧ x < 32 ∧ b ≠ 0x00 ∧ Memory.wf m = true := by
  simp only [Memory.wf, Bool.and_eq_true, Memory.sorted_cons, List.all_cons, decide_eq_true_eq, bne_iff_ne, ne_eq]
  simp only [Memory.size, Memory.unlisted]
  tauto

@[simp] theorem Memory.wf_nil : Memory.wf [] = true := rfl

theorem Memory.above_write {a x : Nat} {m : Memory} (b : Byte) (ha : x < a) (h : Memory.above x m) :
    Memory.above x (Memory.write m a b) := by
  induction m with
  | nil =>
    unfold Memory.write
    split <;> simp [Memory.above, ha]
  | cons c m ih =>
    obtain ⟨y, d⟩ := c
    have hy : x < y := h (y, d) (by simp)
    have hm : Memory.above x m := fun c hc => h c (by simp [hc])
    unfold Memory.write
    split_ifs
    · exact h
    · intro c hc
      rcases List.mem_cons.1 hc with rfl | hc
      · exact ha
      · exact h c hc
    · exact hm
    · intro c hc
      rcases List.mem_cons.1 hc with rfl | hc
      · exact ha
      · exact hm c hc
    · intro c hc
      rcases List.mem_cons.1 hc with rfl | hc
      · exact hy
      · exact ih hm c hc

/-- A write keeps the canonical form. -/
theorem Memory.wf_write {a : Nat} {m : Memory} (b : Byte) (ha : a < 32) (h : Memory.wf m = true) :
    Memory.wf (Memory.write m a b) = true := by
  induction m with
  | nil =>
    unfold Memory.write
    split_ifs with hb
    · rfl
    · exact Memory.wf_cons.2 ⟨by simp [Memory.above], ha, hb, rfl⟩
  | cons c m ih =>
    obtain ⟨y, d⟩ := c
    obtain ⟨h1, h2, h3, h4⟩ := Memory.wf_cons.1 h
    unfold Memory.write
    split_ifs with c1 c2 c3 c4
    · exact h
    · refine Memory.wf_cons.2 ⟨?_, ha, c2, h⟩
      intro c hc
      rcases List.mem_cons.1 hc with rfl | hc
      · exact c1
      · exact lt_trans c1 (h1 c hc)
    · exact h4
    · subst c3
      exact Memory.wf_cons.2 ⟨h1, h2, c4, h4⟩
    · exact Memory.wf_cons.2 ⟨Memory.above_write b (by omega) h1, h2, h3, ih h4⟩

/-- Reading after a write: the byte written where it was written, every other byte as before. -/
theorem Memory.read_write {m : Memory} (h : Memory.wf m = true) (a : Nat) (b : Byte) (x : Nat) :
    Memory.read (Memory.write m a b) x = if x = a then b else Memory.read m x := by
  induction m with
  | nil =>
    unfold Memory.write
    split_ifs with hb hx hx
    · simp [hb, Memory.unlisted]
    · rfl
    · simp [Memory.read_cons, hx]
    · rw [Memory.read_cons, if_neg (by omega)]
  | cons c m ih =>
    obtain ⟨y, d⟩ := c
    obtain ⟨h1, -, -, h4⟩ := Memory.wf_cons.1 h
    have below : ∀ z, z < y → Memory.read ((y, d) :: m) z = 0x00 := fun z hz =>
      Memory.read_above fun c hc => by
        rcases List.mem_cons.1 hc with rfl | hc
        · exact hz
        · exact lt_trans hz (h1 c hc)
    unfold Memory.write
    by_cases c1 : a < y
    · rw [if_pos c1]
      by_cases hb : b = Memory.unlisted
      · rw [if_pos hb]
        by_cases hx : x = a
        · rw [if_pos hx, below x (by omega), hb, Memory.unlisted]
        · rw [if_neg hx]
      · rw [if_neg hb, Memory.read_cons]
        simp only [eq_comm]
    · rw [if_neg c1]
      by_cases c2 : a = y
      · subst c2
        rw [if_pos rfl]
        by_cases hb : b = Memory.unlisted
        · rw [if_pos hb, Memory.read_cons]
          by_cases hx : x = a
          · rw [if_pos hx, hx, hb, Memory.unlisted]
            exact Memory.read_above h1
          · rw [if_neg hx, if_neg (Ne.symm hx)]
        · rw [if_neg hb, Memory.read_cons, Memory.read_cons]
          by_cases hx : x = a
          · rw [if_pos hx, if_pos hx.symm]
          · rw [if_neg hx, if_neg (Ne.symm hx), if_neg (Ne.symm hx)]
      · rw [if_neg c2, Memory.read_cons, Memory.read_cons, ih h4]
        by_cases hy : y = x
        · rw [if_pos hy, if_pos hy, if_neg (by omega)]
        · rw [if_neg hy, if_neg hy]

@[simp] theorem Memory.read_write_same {m : Memory} (h : Memory.wf m = true) (a : Nat) (b : Byte) :
    Memory.read (Memory.write m a b) a = b := by simp [Memory.read_write h]

theorem Memory.read_write_other {m : Memory} (h : Memory.wf m = true) {a x : Nat} (b : Byte) (hx : x ≠ a) :
    Memory.read (Memory.write m a b) x = Memory.read m x := by simp [Memory.read_write h, hx]

/-- Writing a run of bytes keeps the canonical form. -/
theorem Memory.wf_writeBytes {m : Memory} {a : Nat} {bs : List Byte} (ha : a + bs.length ≤ 32)
    (h : Memory.wf m = true) : Memory.wf (Memory.writeBytes m a bs) = true := by
  induction bs generalizing m a with
  | nil => exact h
  | cons b bs ih =>
    simp only [List.length_cons] at ha
    exact ih (by omega) (Memory.wf_write b (by omega) h)

/-- Reading after a run of bytes is written: byte `x - a` of the run inside it, every other byte as before. -/
theorem Memory.read_writeBytes {m : Memory} {a : Nat} {bs : List Byte} (ha : a + bs.length ≤ 32)
    (h : Memory.wf m = true) (x : Nat) :
    Memory.read (Memory.writeBytes m a bs) x
      = if a ≤ x ∧ x < a + bs.length then bs.getD (x - a) 0x00 else Memory.read m x := by
  induction bs generalizing m a with
  | nil => simp [Memory.writeBytes]
  | cons b bs ih =>
    simp only [List.length_cons] at ha
    rw [Memory.writeBytes, ih (by omega) (Memory.wf_write b (by omega) h), Memory.read_write h]
    simp only [List.length_cons]
    by_cases hx : x = a
    · subst hx
      simp
    · by_cases hin : a + 1 ≤ x ∧ x < a + 1 + bs.length
      · obtain ⟨k, rfl⟩ : ∃ k, x = a + 1 + k := ⟨x - (a + 1), by omega⟩
        rw [if_pos hin, if_pos (by omega)]
        simp [show a + 1 + k - a = k + 1 by omega]
      · rw [if_neg hin, if_neg hx, if_neg (by omega)]

/-- The bytes XFER writes are all 32 bytes of FRAME. -/
theorem length_loadFrame {n : Nat} {bytes : List Byte} (hb : bytes.length = n) (hn : n ≤ 32) :
    (bytes ++ List.replicate (Memory.size - n) (0x00 : Byte)).length = 32 := by
  simp [Memory.size, hb]
  omega

/-- XFER keeps the canonical form. -/
theorem wf_loadFrame {m : Memory} {n : Nat} {bytes : List Byte} (hb : bytes.length = n) (hn : n ≤ 32)
    (h : Memory.wf m = true) : Memory.wf (loadFrame m n bytes) = true :=
  Memory.wf_writeBytes (by rw [length_loadFrame hb hn]) h

/-- What XFER leaves in FRAME, byte by byte (41_validate.md R153). -/
theorem read_loadFrame {m : Memory} {n : Nat} {bytes : List Byte} (hb : bytes.length = n) (hn : n ≤ 32)
    (h : Memory.wf m = true) {x : Nat} (hx : x < 32) :
    Memory.read (loadFrame m n bytes) x = bytes.getD x 0x00 := by
  rw [loadFrame, Memory.read_writeBytes (by rw [length_loadFrame hb hn]) h, length_loadFrame hb hn,
    if_pos (by omega), Nat.sub_zero]
  by_cases hxn : x < n
  · rw [List.getD_append _ _ _ _ (by omega)]
  · rw [List.getD_append_right _ _ _ _ (by omega), List.getD_eq_default bytes _ (by omega)]
    simp [List.getD_eq_getElem?_getD, List.getElem?_replicate]
    split_ifs <;> rfl

/-- An index at 32 or above reads as 0. -/
theorem Memory.read_outside {m : Memory} (h : Memory.wf m = true) {a : Nat} (ha : 32 ≤ a) :
    Memory.read m a = 0x00 := by
  induction m with
  | nil => rfl
  | cons c m ih =>
    obtain ⟨x, b⟩ := c
    obtain ⟨-, hx, -, h4⟩ := Memory.wf_cons.1 h
    rw [Memory.read_cons, if_neg (by omega)]
    exact ih h4

/-- The form is canonical: frame buffers that read alike are equal data. -/
theorem Memory.eq_of_read {m n : Memory} (hm : Memory.wf m = true) (hn : Memory.wf n = true)
    (h : ∀ a, Memory.read m a = Memory.read n a) : m = n := by
  induction m generalizing n with
  | nil =>
    cases n with
    | nil => rfl
    | cons c n =>
      obtain ⟨x, b⟩ := c
      obtain ⟨-, -, hb, -⟩ := Memory.wf_cons.1 hn
      have := h x
      rw [Memory.read_nil, Memory.read_cons, if_pos rfl] at this
      exact absurd this.symm hb
  | cons c m ih =>
    obtain ⟨x, b⟩ := c
    obtain ⟨am, -, hb, wm⟩ := Memory.wf_cons.1 hm
    cases n with
    | nil =>
      have := h x
      rw [Memory.read_nil, Memory.read_cons, if_pos rfl] at this
      exact absurd this hb
    | cons d n =>
      obtain ⟨y, e⟩ := d
      obtain ⟨an, -, he, wn⟩ := Memory.wf_cons.1 hn
      have at_x := h x
      have at_y := h y
      rw [Memory.read_cons, if_pos rfl, Memory.read_cons] at at_x
      rw [Memory.read_cons y e n y, if_pos rfl, Memory.read_cons] at at_y
      have hxy : x = y := by
        rcases Nat.lt_trichotomy x y with hlt | heq | hgt
        · rw [if_neg (by omega), Memory.read_above fun c hc => lt_trans hlt (an c hc)] at at_x
          exact absurd at_x hb
        · exact heq
        · rw [if_neg (by omega), Memory.read_above fun c hc => lt_trans hgt (am c hc)] at at_y
          exact absurd at_y.symm he
      subst hxy
      rw [if_pos rfl] at at_x
      subst at_x
      have tail : m = n := ih wm wn fun a => by
        by_cases ha : x = a
        · subst ha
          rw [Memory.read_above am, Memory.read_above an]
        · have := h a
          rwa [Memory.read_cons, if_neg ha, Memory.read_cons, if_neg ha] at this
      rw [tail]

end Sys2Proof.Machine
end

