-- ==== Sys2Proof/Laws/PerInstr.lean ====
section
/-! SUPPORT. Statements about every instruction as syntax, one lemma per constructor. -/

namespace Sys2Proof.Laws.RoundTrip

/-- The instruction is well formed, its fields are a legal command word's, and its word decodes to it. -/
def Statement (i : Instr) : Prop :=
  i.wellFormed = true ∧ (encodeFields i).wellFormed = true ∧ decodeWord (encodeWord i) = .ok i

theorem sync : Statement .sync := ⟨rfl, rfl, rfl⟩
theorem validateP : Statement .validateP := ⟨rfl, rfl, rfl⟩
theorem validateC : Statement .validateC := ⟨rfl, rfl, rfl⟩
theorem decode : Statement .decode := ⟨rfl, rfl, rfl⟩
theorem aqiPm25Us : Statement .aqiPm25Us := ⟨rfl, rfl, rfl⟩
theorem aqiPm10Us : Statement .aqiPm10Us := ⟨rfl, rfl, rfl⟩
theorem aqiPm25Cn : Statement .aqiPm25Cn := ⟨rfl, rfl, rfl⟩
theorem aqiPm10Cn : Statement .aqiPm10Cn := ⟨rfl, rfl, rfl⟩
theorem read : Statement .read := ⟨rfl, rfl, rfl⟩

end Sys2Proof.Laws.RoundTrip
end

