-- ==== Sys2Proof/Laws/Source.lean ====
section
/-! SUPPORT. The laws of the byte source (20_memory.md R68 to R73). -/

namespace Sys2Proof.Machine

@[simp] theorem srcPeek_nil : srcPeek [] = none := rfl
@[simp] theorem srcPeek_cons (b : Byte) (q : List Byte) : srcPeek (b :: q) = some b := rfl
@[simp] theorem srcPop_cons (b : Byte) (q : List Byte) : srcPop (b :: q) = q := rfl

theorem srcPeek_eq_some {q : List Byte} {b : Byte} : srcPeek q = some b ↔ q = b :: srcPop q := by
  cases q <;> simp

theorem srcPeek_eq_none {q : List Byte} : srcPeek q = none ↔ q = [] := by cases q <;> simp

/-- `SrcAvail() = 0` exactly when `SrcPeek() = none` (R70). -/
theorem srcAvail_eq_zero {q : List Byte} : srcAvail q = 0 ↔ srcPeek q = none := by cases q <;> simp [srcAvail]

/-- With `AVAIL_W ≥ 6` the port's saturation never changes the answer of a comparison with a frame length (R70). -/
theorem srcAvailSaturated_ge {w n : Nat} (hw : 6 ≤ w) (hn : n ≤ 32) (q : List Byte) :
    n ≤ srcAvailSaturated w q ↔ n ≤ srcAvail q := by
  have h : 2 ^ 6 ≤ 2 ^ w := Nat.pow_le_pow_right (by norm_num) hw
  simp only [srcAvailSaturated, srcAvail]
  omega

/-- Bytes that arrive do not take the head away (R73). -/
theorem srcPeek_srcArrive {q : List Byte} {b c : Byte} (h : srcPeek q = some b) :
    srcPeek (srcArrive q c) = some b := by
  cases q with
  | nil => simp at h
  | cons d q => simpa [srcArrive] using h

@[simp] theorem length_srcArrive (q : List Byte) (b : Byte) : (srcArrive q b).length = q.length + 1 := by
  simp [srcArrive]

/-- The answers a read-exact can give (R71): all `n` oldest bytes in order, or, if `SRC_MAY_FAIL`, `short(k)` with `k < n`
bytes lost. -/
theorem srcReadExact_cases (draw : Option Nat) (n : Nat) (q : List Byte) :
    srcReadExact draw n q = .ok (q.take n) (q.drop n)
      ∨ ∃ k, draw = some k ∧ k < n ∧ Config.srcMayFail = true ∧ srcReadExact draw n q = .short k (q.drop k) := by
  cases draw with
  | none => exact .inl rfl
  | some k =>
    by_cases h : k < n ∧ Config.srcMayFail = true
    · exact .inr ⟨k, rfl, h.1, h.2, if_pos h⟩
    · exact .inl (if_neg h)

@[simp] theorem srcReadExact_none (n : Nat) (q : List Byte) :
    srcReadExact none n q = .ok (q.take n) (q.drop n) := rfl

theorem srcReadExact_short {k n : Nat} (hk : k < n) (hf : Config.srcMayFail = true) (q : List Byte) :
    srcReadExact (some k) n q = .short k (q.drop k) := if_pos ⟨hk, hf⟩

theorem srcReadExact_ok {draw : Option Nat} {n : Nat}
    (h : ∀ k, draw = some k → k < n → Config.srcMayFail = false) (q : List Byte) :
    srcReadExact draw n q = .ok (q.take n) (q.drop n) := by
  rcases srcReadExact_cases draw n q with hq | ⟨k, hd, hk, hf, -⟩
  · exact hq
  · simp [h k hd hk] at hf

end Sys2Proof.Machine
end

