-- ==== Sys2Proof/Laws/State.lean ====
section
/-! SUPPORT. What each named update of State leaves in each field: one lemma per field per update, so that no proof unfolds
a record update. -/

namespace Sys2Proof.Machine

/-! ### `raise` -/

@[simp] theorem raise_reading (e : ErrorCause) (s : State) : (raise e s).reading = s.reading := rfl
@[simp] theorem raise_phase (e : ErrorCause) (s : State) : (raise e s).phase = .idle := rfl
@[simp] theorem raise_cmdl (e : ErrorCause) (s : State) : (raise e s).cmdl = s.cmdl := rfl
@[simp] theorem raise_done (e : ErrorCause) (s : State) : (raise e s).done = true := rfl
@[simp] theorem raise_err (e : ErrorCause) (s : State) : (raise e s).err = errorCode e := rfl
@[simp] theorem raise_pvalid (e : ErrorCause) (s : State) : (raise e s).pvalid = s.pvalid := rfl
@[simp] theorem raise_proto (e : ErrorCause) (s : State) : (raise e s).proto = s.proto := rfl
@[simp] theorem raise_fvalid (e : ErrorCause) (s : State) : (raise e s).fvalid = s.fvalid := rfl
@[simp] theorem raise_fproto (e : ErrorCause) (s : State) : (raise e s).fproto = s.fproto := rfl
@[simp] theorem raise_rvalid (e : ErrorCause) (s : State) : (raise e s).rvalid = s.rvalid := rfl
@[simp] theorem raise_hasCounts (e : ErrorCause) (s : State) : (raise e s).hasCounts = s.hasCounts := rfl
@[simp] theorem raise_operand (e : ErrorCause) (s : State) : (raise e s).operand = s.operand := rfl
@[simp] theorem raise_result (e : ErrorCause) (s : State) : (raise e s).result = s.result := rfl
@[simp] theorem raise_dcnt (e : ErrorCause) (s : State) : (raise e s).dcnt = s.dcnt := rfl
@[simp] theorem raise_acc (e : ErrorCause) (s : State) : (raise e s).acc = s.acc := rfl
@[simp] theorem raise_frame (e : ErrorCause) (s : State) : (raise e s).frame = s.frame := rfl
@[simp] theorem raise_source (e : ErrorCause) (s : State) : (raise e s).source = s.source := rfl
@[simp] theorem raise_readDraw (e : ErrorCause) (s : State) : (raise e s).readDraw = s.readDraw := rfl
@[simp] theorem raise_agenda (e : ErrorCause) (s : State) : (raise e s).agenda = s.agenda := rfl
@[simp] theorem raise_readData (e : ErrorCause) (s : State) : (raise e s).readData = s.readData := rfl
@[simp] theorem raise_drawCount (e : ErrorCause) (s : State) : (raise e s).drawCount = s.drawCount := rfl

/-! ### `endOk` -/

@[simp] theorem endOk_reading (s : State) : (endOk s).reading = s.reading := rfl
@[simp] theorem endOk_phase (s : State) : (endOk s).phase = .idle := rfl
@[simp] theorem endOk_cmdl (s : State) : (endOk s).cmdl = s.cmdl := rfl
@[simp] theorem endOk_done (s : State) : (endOk s).done = true := rfl
@[simp] theorem endOk_err (s : State) : (endOk s).err = 0 := rfl
@[simp] theorem endOk_pvalid (s : State) : (endOk s).pvalid = s.pvalid := rfl
@[simp] theorem endOk_proto (s : State) : (endOk s).proto = s.proto := rfl
@[simp] theorem endOk_fvalid (s : State) : (endOk s).fvalid = s.fvalid := rfl
@[simp] theorem endOk_fproto (s : State) : (endOk s).fproto = s.fproto := rfl
@[simp] theorem endOk_rvalid (s : State) : (endOk s).rvalid = s.rvalid := rfl
@[simp] theorem endOk_hasCounts (s : State) : (endOk s).hasCounts = s.hasCounts := rfl
@[simp] theorem endOk_operand (s : State) : (endOk s).operand = s.operand := rfl
@[simp] theorem endOk_result (s : State) : (endOk s).result = s.result := rfl
@[simp] theorem endOk_dcnt (s : State) : (endOk s).dcnt = s.dcnt := rfl
@[simp] theorem endOk_acc (s : State) : (endOk s).acc = s.acc := rfl
@[simp] theorem endOk_frame (s : State) : (endOk s).frame = s.frame := rfl
@[simp] theorem endOk_source (s : State) : (endOk s).source = s.source := rfl
@[simp] theorem endOk_readDraw (s : State) : (endOk s).readDraw = s.readDraw := rfl
@[simp] theorem endOk_agenda (s : State) : (endOk s).agenda = s.agenda := rfl
@[simp] theorem endOk_readData (s : State) : (endOk s).readData = s.readData := rfl
@[simp] theorem endOk_drawCount (s : State) : (endOk s).drawCount = s.drawCount := rfl

/-! ### `goto` -/

@[simp] theorem goto_reading (p : Phase) (s : State) : (goto p s).reading = s.reading := rfl
@[simp] theorem goto_phase (p : Phase) (s : State) : (goto p s).phase = p := rfl
@[simp] theorem goto_cmdl (p : Phase) (s : State) : (goto p s).cmdl = s.cmdl := rfl
@[simp] theorem goto_done (p : Phase) (s : State) : (goto p s).done = s.done := rfl
@[simp] theorem goto_err (p : Phase) (s : State) : (goto p s).err = s.err := rfl
@[simp] theorem goto_pvalid (p : Phase) (s : State) : (goto p s).pvalid = s.pvalid := rfl
@[simp] theorem goto_proto (p : Phase) (s : State) : (goto p s).proto = s.proto := rfl
@[simp] theorem goto_fvalid (p : Phase) (s : State) : (goto p s).fvalid = s.fvalid := rfl
@[simp] theorem goto_fproto (p : Phase) (s : State) : (goto p s).fproto = s.fproto := rfl
@[simp] theorem goto_rvalid (p : Phase) (s : State) : (goto p s).rvalid = s.rvalid := rfl
@[simp] theorem goto_hasCounts (p : Phase) (s : State) : (goto p s).hasCounts = s.hasCounts := rfl
@[simp] theorem goto_operand (p : Phase) (s : State) : (goto p s).operand = s.operand := rfl
@[simp] theorem goto_result (p : Phase) (s : State) : (goto p s).result = s.result := rfl
@[simp] theorem goto_dcnt (p : Phase) (s : State) : (goto p s).dcnt = s.dcnt := rfl
@[simp] theorem goto_acc (p : Phase) (s : State) : (goto p s).acc = s.acc := rfl
@[simp] theorem goto_frame (p : Phase) (s : State) : (goto p s).frame = s.frame := rfl
@[simp] theorem goto_source (p : Phase) (s : State) : (goto p s).source = s.source := rfl
@[simp] theorem goto_readDraw (p : Phase) (s : State) : (goto p s).readDraw = s.readDraw := rfl
@[simp] theorem goto_agenda (p : Phase) (s : State) : (goto p s).agenda = s.agenda := rfl
@[simp] theorem goto_readData (p : Phase) (s : State) : (goto p s).readData = s.readData := rfl
@[simp] theorem goto_drawCount (p : Phase) (s : State) : (goto p s).drawCount = s.drawCount := rfl

/-! ### `latch` -/

@[simp] theorem latch_reading (i : Instr) (s : State) : (latch i s).reading = s.reading := rfl
@[simp] theorem latch_phase (i : Instr) (s : State) : (latch i s).phase = s.phase := rfl
@[simp] theorem latch_cmdl (i : Instr) (s : State) : (latch i s).cmdl = encodeWord i := rfl
@[simp] theorem latch_done (i : Instr) (s : State) : (latch i s).done = false := rfl
@[simp] theorem latch_err (i : Instr) (s : State) : (latch i s).err = 0 := rfl
@[simp] theorem latch_pvalid (i : Instr) (s : State) : (latch i s).pvalid = s.pvalid := rfl
@[simp] theorem latch_proto (i : Instr) (s : State) : (latch i s).proto = s.proto := rfl
@[simp] theorem latch_fvalid (i : Instr) (s : State) : (latch i s).fvalid = s.fvalid := rfl
@[simp] theorem latch_fproto (i : Instr) (s : State) : (latch i s).fproto = s.fproto := rfl
@[simp] theorem latch_rvalid (i : Instr) (s : State) : (latch i s).rvalid = s.rvalid := rfl
@[simp] theorem latch_hasCounts (i : Instr) (s : State) : (latch i s).hasCounts = s.hasCounts := rfl
@[simp] theorem latch_operand (i : Instr) (s : State) : (latch i s).operand = s.operand := rfl
@[simp] theorem latch_result (i : Instr) (s : State) : (latch i s).result = s.result := rfl
@[simp] theorem latch_dcnt (i : Instr) (s : State) : (latch i s).dcnt = s.dcnt := rfl
@[simp] theorem latch_acc (i : Instr) (s : State) : (latch i s).acc = s.acc := rfl
@[simp] theorem latch_frame (i : Instr) (s : State) : (latch i s).frame = s.frame := rfl
@[simp] theorem latch_source (i : Instr) (s : State) : (latch i s).source = s.source := rfl
@[simp] theorem latch_readDraw (i : Instr) (s : State) : (latch i s).readDraw = s.readDraw := rfl
@[simp] theorem latch_agenda (i : Instr) (s : State) : (latch i s).agenda = s.agenda := rfl
@[simp] theorem latch_readData (i : Instr) (s : State) : (latch i s).readData = s.readData := rfl
@[simp] theorem latch_drawCount (i : Instr) (s : State) : (latch i s).drawCount = s.drawCount := rfl

/-! ### `resetCore` -/

@[simp] theorem resetCore_reading (s : State) : (resetCore s).reading = Reading.zero := rfl
@[simp] theorem resetCore_phase (s : State) : (resetCore s).phase = .idle := rfl
@[simp] theorem resetCore_cmdl (s : State) : (resetCore s).cmdl = 0x00 := rfl
@[simp] theorem resetCore_done (s : State) : (resetCore s).done = false := rfl
@[simp] theorem resetCore_err (s : State) : (resetCore s).err = 0 := rfl
@[simp] theorem resetCore_pvalid (s : State) : (resetCore s).pvalid = false := rfl
@[simp] theorem resetCore_proto (s : State) : (resetCore s).proto = .plantowerPM := rfl
@[simp] theorem resetCore_fvalid (s : State) : (resetCore s).fvalid = false := rfl
@[simp] theorem resetCore_fproto (s : State) : (resetCore s).fproto = .plantowerPM := rfl
@[simp] theorem resetCore_rvalid (s : State) : (resetCore s).rvalid = false := rfl
@[simp] theorem resetCore_hasCounts (s : State) : (resetCore s).hasCounts = false := rfl
@[simp] theorem resetCore_operand (s : State) : (resetCore s).operand = 0 := rfl
@[simp] theorem resetCore_result (s : State) : (resetCore s).result = 0 := rfl
@[simp] theorem resetCore_dcnt (s : State) : (resetCore s).dcnt = 0 := rfl
@[simp] theorem resetCore_acc (s : State) : (resetCore s).acc = 0 := rfl
@[simp] theorem resetCore_frame (s : State) : (resetCore s).frame = [] := rfl
@[simp] theorem resetCore_source (s : State) : (resetCore s).source = s.source := rfl
@[simp] theorem resetCore_readDraw (s : State) : (resetCore s).readDraw = s.readDraw := rfl
@[simp] theorem resetCore_agenda (s : State) : (resetCore s).agenda = s.agenda := rfl
@[simp] theorem resetCore_readData (s : State) : (resetCore s).readData = s.readData := rfl
@[simp] theorem resetCore_drawCount (s : State) : (resetCore s).drawCount = s.drawCount := rfl

end Sys2Proof.Machine
end

