-- ==== Sys2Proof/Laws/Steps.lean ====
section
/-! SUPPORT. For each shared operation, once, everything it can do; the proofs about commands and steps cite these. -/

namespace Sys2Proof.Machine

/-! ### The steps of the core -/

theorem markerOf_eq_some {b : Byte} {p : ProtocolKind} :
    markerOf b = some p ↔ (b = 0x42 ∧ p = .plantowerPM) ∨ (b = 0x16 ∧ p = .cubicPM1006) := by
  revert b p
  have h : ∀ b : Byte, markerOf b = some .plantowerPM ↔ b = 0x42 := by decide
  have h' : ∀ b : Byte, markerOf b = some .cubicPM1006 ↔ b = 0x16 := by decide
  intro b p
  cases p
  · simp [h]
  · simp [h']

/-- The four things a SCAN step can do (40_sync.md R131). -/
theorem scanStep_cases (op : Op) (s : State) :
    (s.dcnt = 32 ∧ scanStep op s = raise .noStartByte s)
      ∨ (s.dcnt ≠ 32 ∧ s.source = [] ∧ scanStep op s = raise .starved s)
      ∨ (∃ b p, s.dcnt ≠ 32 ∧ srcPeek s.source = some b ∧ markerOf b = some p
          ∧ scanStep op s = (if op = .sync then endOk { s with proto := p, pvalid := true }
              else goto .avail { s with proto := p, pvalid := true }))
      ∨ (∃ b, s.dcnt ≠ 32 ∧ srcPeek s.source = some b ∧ markerOf b = none
          ∧ scanStep op s = { s with source := srcPop s.source, dcnt := s.dcnt + 1 }) := by
  unfold scanStep Config.syncBudget
  by_cases hd : s.dcnt = 32
  · exact .inl ⟨hd, if_pos hd⟩
  · rw [if_neg hd]
    cases hp : srcPeek s.source with
    | none => exact .inr (.inl ⟨hd, srcPeek_eq_none.1 hp, rfl⟩)
    | some b =>
      cases hm : markerOf b with
      | none => exact .inr (.inr (.inr ⟨b, hd, rfl, hm, by simp only [hm]⟩))
      | some p => exact .inr (.inr (.inl ⟨b, p, hd, rfl, hm, by simp only [hm]⟩))

/-- The two things an AVAIL step can do (41_validate.md R152). -/
theorem availStep_cases (vp : ProtocolKind) (s : State) :
    (frameLength vp ≤ s.source.length ∧ availStep vp s = goto .xfer s)
      ∨ (s.source.length < frameLength vp ∧ availStep vp s = raise .incomplete s) := by
  unfold availStep srcAvail
  by_cases h : frameLength vp ≤ s.source.length
  · exact .inl ⟨h, if_pos h⟩
  · exact .inr ⟨by omega, if_neg h⟩

/-- What a XFER step can do when its precondition holds (41_validate.md R153). -/
theorem xferStep_cases (vp : ProtocolKind) (s : State) (h : frameLength vp ≤ s.source.length) :
    (xferStep vp s = .next (goto .check
        { s with frame := frameOf s.frame (frameLength vp) s.source
                 source := s.source.drop (frameLength vp), readDraw := none }))
      ∨ (∃ k, s.readDraw = some k ∧ k < frameLength vp ∧ Config.srcMayFail = true
          ∧ xferStep vp s = .next (raise .shortRead { s with source := s.source.drop k, readDraw := none })) := by
  unfold xferStep
  rw [if_neg (by omega)]
  rcases srcReadExact_cases s.readDraw (frameLength vp) s.source with hq | ⟨k, hd, hk, hf, hq⟩
  · rw [hq]
    exact .inl rfl
  · rw [hq]
    exact .inr ⟨k, hd, hk, hf, rfl⟩

/-- The three things a CHECK step can do (41_validate.md R157). -/
theorem checkStep_cases (op : Op) (vp : ProtocolKind) (s : State) :
    (headerOk vp s.frame = false ∧ checkStep op vp s = raise .badHeader s)
      ∨ (headerOk vp s.frame = true ∧ checksumOk vp s.frame = false
          ∧ checkStep op vp s = raise .badChecksum { s with acc := frameSum vp s.frame })
      ∨ (headerOk vp s.frame = true ∧ checksumOk vp s.frame = true
          ∧ checkStep op vp s
            = (if op = .validate then endOk { s with acc := frameSum vp s.frame, fvalid := true, fproto := vp }
                else goto .dec { s with acc := frameSum vp s.frame, fvalid := true, fproto := vp })) := by
  unfold checkStep
  cases hh : headerOk vp s.frame with
  | false => exact .inl ⟨rfl, rfl⟩
  | true =>
    cases hc : checksumOk vp s.frame with
    | false => exact .inr (.inl ⟨rfl, rfl, rfl⟩)
    | true => exact .inr (.inr ⟨rfl, rfl, rfl⟩)

/-- DEC fills the field registers from FRAME under FPROTO and leaves the AQI registers (42_decode.md R181). -/
theorem decStep_eq (s : State) :
    decStep s = goto .conv
      { s with reading := (match s.fproto with
                | .plantowerPM => fieldsP s.frame s.reading
                | .cubicPM1006 => fieldsC s.frame s.reading)
               hasCounts := decide (s.fproto = .plantowerPM) } := by
  unfold decStep
  cases s.fproto <;> rfl

/-- The two things the issue of DECODE can do (60_exceptions.md R285). -/
theorem issueDecode_cases (s : State) :
    (s.fvalid = true ∧ issueDecode s = goto .dec { latch .decode s with rvalid := false })
      ∨ (s.fvalid = false ∧ issueDecode s = raise .errSeq { latch .decode s with rvalid := false }) := by
  unfold issueDecode
  cases h : s.fvalid with
  | true => exact .inl ⟨rfl, rfl⟩
  | false => exact .inr ⟨rfl, rfl⟩

/-! ### Whose turn it is -/

@[simp] theorem busy_eq_false {s : State} : busy s = false ↔ s.phase = .idle := by simp [busy]

@[simp] theorem busy_eq_true {s : State} : busy s = true ↔ s.phase ≠ .idle := by simp [busy]

/-- The core's turn: nothing when idle; the command CMDL holds when busy. -/
theorem coreTurn_cases (s : State) :
    (s.phase = .idle ∧ coreTurn s = .moves s)
      ∨ (∃ i, s.phase ≠ .idle ∧ decodeWord s.cmdl = .ok i ∧ coreTurn s = .runs i s)
      ∨ (∃ r, s.phase ≠ .idle ∧ decodeWord s.cmdl = .error r ∧ coreTurn s = .faults .noCommandLatched) := by
  unfold coreTurn
  by_cases hb : s.phase = .idle
  · exact .inl ⟨hb, by rw [busy_eq_false.2 hb]; rfl⟩
  · rw [busy_eq_true.2 hb]
    cases hd : decodeWord s.cmdl with
    | ok i => exact .inr (.inl ⟨i, hb, rfl, rfl⟩)
    | error r => exact .inr (.inr ⟨r, hb, rfl, rfl⟩)

/-- A host write: ignored, or an issue, or ERR_ILLEGAL, or OPERAND, or nothing. -/
theorem hostWrite_cases (idx : Byte) (v : Word) (s : State) :
    (s.phase ≠ .idle ∧ hostWrite idx v s = .moves s)
      ∨ (∃ i, s.phase = .idle ∧ idx = 0x00 ∧ decodeWord (commandByte v) = .ok i ∧ hostWrite idx v s = .runs i s)
      ∨ (∃ r, s.phase = .idle ∧ idx = 0x00 ∧ decodeWord (commandByte v) = .error r
          ∧ hostWrite idx v s = .moves (raise .errIllegal s))
      ∨ (s.phase = .idle ∧ idx = 0x02 ∧ hostWrite idx v s = .moves { s with operand := v })
      ∨ (s.phase = .idle ∧ idx ≠ 0x00 ∧ idx ≠ 0x02 ∧ hostWrite idx v s = .moves s) := by
  unfold hostWrite
  by_cases hb : s.phase = .idle
  · rw [busy_eq_false.2 hb]
    by_cases h0 : idx = 0x00
    · rw [if_neg Bool.false_ne_true, if_pos h0]
      cases hd : decodeWord (commandByte v) with
      | ok i => exact .inr (.inl ⟨i, hb, h0, rfl, rfl⟩)
      | error r => exact .inr (.inr (.inl ⟨r, hb, h0, rfl, rfl⟩))
    · rw [if_neg Bool.false_ne_true, if_neg h0]
      by_cases h2 : idx = 0x02
      · exact .inr (.inr (.inr (.inl ⟨hb, h2, if_pos h2⟩)))
      · exact .inr (.inr (.inr (.inr ⟨hb, h0, h2, if_neg h2⟩)))
  · rw [busy_eq_true.2 hb]
    exact .inl ⟨hb, rfl⟩

/-- A host read changes nothing but the host's own two fields (60_exceptions.md R284). -/
theorem hostRead_eq (idx : Byte) (s : State) :
    ∃ v n, hostRead idx s = { s with readData := v, drawCount := n } := by
  unfold hostRead
  split
  · exact ⟨_, _, rfl⟩
  · exact ⟨_, s.drawCount, rfl⟩

@[simp] theorem nextTurn_nil {s : State} (h : s.agenda = []) : nextTurn s = coreTurn s := by
  simp [nextTurn, h]

@[simp] theorem nextTurn_cons {s : State} {a : AgentAction} {rest : List AgentAction} (h : s.agenda = a :: rest) :
    nextTurn s = takeAction a { s with agenda := rest } := by
  simp [nextTurn, h]

/-! ### A step -/

theorem step_runs {s t : State} {i : Instr} (h : nextTurn s = .runs i t) : step s = exec i t := by simp [step, h]

theorem step_moves {s t : State} (h : nextTurn s = .moves t) : step s = .next t := by simp [step, h]

/-- Everything a step that answers a next state can have done: an instruction ran, at the core's turn or by a write to CMD;
or the core had nothing to do, or a write was ignored; or one agent's action took effect without an instruction. -/
theorem step_next_cases {s t : State} (h : step s = .next t) :
    (∃ i rest, exec i { s with agenda := rest } = .next t
        ∧ ((s.phase ≠ .idle ∧ decodeWord s.cmdl = .ok i
              ∧ (s.agenda = [] ∧ rest = [] ∨ s.agenda = .core :: rest))
            ∨ (s.phase = .idle ∧ ∃ v, s.agenda = .hostWrite 0x00 v :: rest ∧ decodeWord (commandByte v) = .ok i)))
      ∨ (∃ rest, t = { s with agenda := rest }
        ∧ ((s.phase = .idle ∧ (s.agenda = [] ∧ rest = [] ∨ s.agenda = .core :: rest))
            ∨ ∃ idx v, s.agenda = .hostWrite idx v :: rest ∧ (s.phase ≠ .idle ∨ idx ≠ 0x00 ∧ idx ≠ 0x02)))
      ∨ (∃ b rest, s.agenda = .arrive b :: rest ∧ t = { s with agenda := rest, source := srcArrive s.source b })
      ∨ (∃ k rest, s.agenda = .failRead k :: rest ∧ t = { s with agenda := rest, readDraw := some k })
      ∨ (∃ v rest, s.agenda = .hostWrite 0x00 v :: rest ∧ s.phase = .idle
        ∧ t = raise .errIllegal { s with agenda := rest })
      ∨ (∃ v rest, s.agenda = .hostWrite 0x02 v :: rest ∧ s.phase = .idle
        ∧ t = { s with agenda := rest, operand := v })
      ∨ (∃ idx rest v n, s.agenda = .hostRead idx :: rest
        ∧ t = { s with agenda := rest, readData := v, drawCount := n })
      ∨ (∃ rest, s.agenda = .reset :: rest ∧ t = resetCore { s with agenda := rest }) := by
  have moved : ∀ {u : State}, nextTurn s = .moves u → t = u := fun hn => by
    rw [step_moves hn] at h
    injection h with h
    exact h.symm
  have core : ∀ rest : List AgentAction, (s.agenda = [] ∧ rest = [] ∨ s.agenda = .core :: rest) →
      nextTurn s = coreTurn { s with agenda := rest } →
      (∃ i rest, exec i { s with agenda := rest } = .next t
          ∧ s.phase ≠ .idle ∧ decodeWord s.cmdl = .ok i ∧ (s.agenda = [] ∧ rest = [] ∨ s.agenda = .core :: rest))
        ∨ (∃ rest, t = { s with agenda := rest } ∧ s.phase = .idle
          ∧ (s.agenda = [] ∧ rest = [] ∨ s.agenda = .core :: rest)) := by
    intro rest ha hn
    rcases coreTurn_cases { s with agenda := rest } with ⟨hp, e⟩ | ⟨i, hp, hd, e⟩ | ⟨r, -, -, e⟩
    · exact .inr ⟨rest, moved (hn.trans e), hp, ha⟩
    · rw [step_runs (hn.trans e)] at h
      exact .inl ⟨i, rest, h, hp, hd, ha⟩
    · simp [step, hn.trans e] at h
  cases ha : s.agenda with
  | nil =>
    rcases core [] (.inl ⟨ha, rfl⟩) (by rw [nextTurn_nil ha, ← ha]) with
      ⟨i, rest, he, hp, hd, hr⟩ | ⟨rest, ht, hp, hr⟩
    · exact .inl ⟨i, rest, he, .inl ⟨hp, hd, ha ▸ hr⟩⟩
    · exact .inr (.inl ⟨rest, ht, .inl ⟨hp, ha ▸ hr⟩⟩)
  | cons a rest =>
    have hn := nextTurn_cons ha
    cases a with
    | core =>
      rcases core rest (.inr ha) hn with ⟨i, rest', he, hp, hd, hr⟩ | ⟨rest', ht, hp, hr⟩
      · exact .inl ⟨i, rest', he, .inl ⟨hp, hd, ha ▸ hr⟩⟩
      · exact .inr (.inl ⟨rest', ht, .inl ⟨hp, ha ▸ hr⟩⟩)
    | arrive b => exact .inr (.inr (.inl ⟨b, rest, rfl, moved hn⟩))
    | failRead k => exact .inr (.inr (.inr (.inl ⟨k, rest, rfl, moved hn⟩)))
    | foreignPop => simp [step, hn, takeAction] at h
    | hostWrite idx v =>
      rcases hostWrite_cases idx v { s with agenda := rest } with
        ⟨hp, e⟩ | ⟨i, hp, rfl, hd, e⟩ | ⟨r, hp, rfl, -, e⟩ | ⟨hp, rfl, e⟩ | ⟨-, h0, h2, e⟩
      · exact .inr (.inl ⟨rest, moved (hn.trans e), .inr ⟨idx, v, rfl, .inl hp⟩⟩)
      · rw [step_runs (hn.trans e)] at h
        exact .inl ⟨i, rest, h, .inr ⟨hp, v, rfl, hd⟩⟩
      · exact .inr (.inr (.inr (.inr (.inl ⟨v, rest, rfl, hp, moved (hn.trans e)⟩))))
      · exact .inr (.inr (.inr (.inr (.inr (.inl ⟨v, rest, rfl, hp, moved (hn.trans e)⟩)))))
      · exact .inr (.inl ⟨rest, moved (hn.trans e), .inr ⟨idx, v, rfl, .inr ⟨h0, h2⟩⟩⟩)
    | hostRead idx =>
      obtain ⟨v, n, e⟩ := hostRead_eq idx { s with agenda := rest }
      exact .inr (.inr (.inr (.inr (.inr (.inr (.inl ⟨idx, rest, v, n, rfl, (moved hn).trans e⟩))))))
    | reset => exact .inr (.inr (.inr (.inr (.inr (.inr (.inr ⟨rest, rfl, moved hn⟩))))))

/-! ### What `exec` is, at each phase -/

theorem frameLength_le (vp : ProtocolKind) : frameLength vp ≤ 32 := by
  cases vp <;> decide

theorem underValidation_of_validatesUnder {i : Instr} {vp : ProtocolKind} {s : State} (h : validatesUnder i vp s) :
    underValidation i s = vp ∧ (i = .validateP ∨ i = .validateC ∨ i = .read) := by
  rcases h with ⟨rfl, rfl⟩ | ⟨rfl, rfl⟩ | ⟨rfl, rfl⟩ <;> simp [underValidation, Instr.protocolOperand]

/-- The two commands that scan run the one SCAN step. -/
theorem exec_scan {i : Instr} {s : State} (hi : i = .sync ∨ i = .read) (hp : s.phase = .scan) :
    exec i s = .next (scanStep i.op s) := by
  rcases hi with rfl | rfl <;> simp [exec, execSync, execRead, hp, Instr.op]

/-- The three commands that validate run the one AVAIL step. -/
theorem exec_avail {i : Instr} {vp : ProtocolKind} {s : State} (h : validatesUnder i vp s) (hp : s.phase = .avail) :
    exec i s = .next (availStep vp s) := by
  obtain ⟨hu, rfl | rfl | rfl⟩ := underValidation_of_validatesUnder h <;>
    simp [exec, execValidateP, execValidateC, validateFlow, execRead, hp, hu]

/-- The three commands that validate run the one XFER step. -/
theorem exec_xfer {i : Instr} {vp : ProtocolKind} {s : State} (h : validatesUnder i vp s) (hp : s.phase = .xfer) :
    exec i s = xferStep vp s := by
  obtain ⟨hu, rfl | rfl | rfl⟩ := underValidation_of_validatesUnder h <;>
    simp [exec, execValidateP, execValidateC, validateFlow, execRead, hp, hu]

/-- The three commands that validate run the one CHECK step. -/
theorem exec_check {i : Instr} {vp : ProtocolKind} {s : State} (h : validatesUnder i vp s) (hp : s.phase = .check) :
    exec i s = .next (checkStep i.op vp s) := by
  obtain ⟨hu, rfl | rfl | rfl⟩ := underValidation_of_validatesUnder h <;>
    simp [exec, execValidateP, execValidateC, validateFlow, execRead, hp, hu, Instr.op]

/-- The two commands that decode run the one DEC step. -/
theorem exec_dec {i : Instr} {s : State} (hi : i = .decode ∨ i = .read) (hp : s.phase = .dec) :
    exec i s = .next (decStep s) := by
  rcases hi with rfl | rfl <;> simp [exec, execDecode, execRead, hp]

/-- The two commands that decode run the one CONV step. -/
theorem exec_conv {i : Instr} {s : State} (hi : i = .decode ∨ i = .read) (hp : s.phase = .conv) :
    exec i s = .next (convStep s) := by
  rcases hi with rfl | rfl <;> simp [exec, execDecode, execRead, hp]

/-- The four standalone conversions run the one AQI1 step. -/
theorem exec_aqi1 {i : Instr} {p : Pollutant} {d : Standard} {s : State} (hi : i.pairOperand = some (p, d))
    (hp : s.phase = .aqi1) : exec i s = .next (aqi1Step p d s) := by
  cases i <;> simp only [Instr.pairOperand, Option.some.injEq, Prod.mk.injEq, reduceCtorEq] at hi <;>
    obtain ⟨rfl, rfl⟩ := hi <;>
    simp [exec, execAqiPm25Us, execAqiPm10Us, execAqiPm25Cn, execAqiPm10Cn, aqiFlow, hp]

/-- At a phase of a command's flow `exec` is the step that phase selects (10_state.md R28, R29). -/
theorem exec_in_flow {i : Instr} {s : State} (h : inFlow i s.phase = true) :
    (s.phase = .scan ∧ (i = .sync ∨ i = .read) ∧ exec i s = .next (scanStep i.op s))
      ∨ (s.phase = .avail ∧ validatesUnder i (underValidation i s) s
        ∧ exec i s = .next (availStep (underValidation i s) s))
      ∨ (s.phase = .xfer ∧ validatesUnder i (underValidation i s) s ∧ exec i s = xferStep (underValidation i s) s)
      ∨ (s.phase = .check ∧ validatesUnder i (underValidation i s) s
        ∧ exec i s = .next (checkStep i.op (underValidation i s) s))
      ∨ (s.phase = .dec ∧ (i = .decode ∨ i = .read) ∧ exec i s = .next (decStep s))
      ∨ (s.phase = .conv ∧ (i = .decode ∨ i = .read) ∧ exec i s = .next (convStep s))
      ∨ (s.phase = .aqi1 ∧ ∃ p d, i.pairOperand = some (p, d) ∧ exec i s = .next (aqi1Step p d s)) := by
  cases hp : s.phase <;> cases i <;> rw [hp] at h <;> simp only [inFlow, Instr.op, Bool.false_eq_true] at h <;>
    simp [exec, execSync, execValidateP, execValidateC, validateFlow, execDecode, execAqiPm25Us, execAqiPm10Us,
      execAqiPm25Cn, execAqiPm10Cn, aqiFlow, execRead, hp, validatesUnder, underValidation, Instr.protocolOperand,
      Instr.pairOperand, Instr.op]

/-- What `exec` does when the core is idle: it issues the command (60_exceptions.md R285). -/
theorem exec_idle {i : Instr} {s : State} (hp : s.phase = .idle) :
    exec i s = .next (issued i s) := by
  cases i <;> simp [exec, execSync, execValidateP, execValidateC, validateFlow, execDecode, execAqiPm25Us, execAqiPm10Us,
    execAqiPm25Cn, execAqiPm10Cn, aqiFlow, execRead, issued, hp]

/-- At a phase outside a command's flow `exec` stops by name. -/
theorem exec_next_in_flow {i : Instr} {s t : State} (hp : s.phase ≠ .idle) (h : exec i s = .next t) :
    inFlow i s.phase = true := by
  cases hq : s.phase <;> cases i <;> first
    | rfl
    | exact absurd hq hp
    | simp [exec, execSync, execValidateP, execValidateC, validateFlow, execDecode, execAqiPm25Us, execAqiPm10Us,
        execAqiPm25Cn, execAqiPm10Cn, aqiFlow, execRead, hq] at h

/-- Everything a step of a busy core that answers a next state can have done (10_state.md R29). -/
theorem exec_busy_cases {i : Instr} {s t : State} (hp : s.phase ≠ .idle) (h : exec i s = .next t) :
    (s.phase = .scan ∧ (i = .sync ∨ i = .read) ∧ t = scanStep i.op s)
      ∨ (s.phase = .avail ∧ validatesUnder i (underValidation i s) s ∧ t = availStep (underValidation i s) s)
      ∨ (s.phase = .xfer ∧ validatesUnder i (underValidation i s) s
        ∧ frameLength (underValidation i s) ≤ s.source.length
        ∧ (t = goto .check
              { s with frame := frameOf s.frame (frameLength (underValidation i s)) s.source
                       source := s.source.drop (frameLength (underValidation i s)), readDraw := none }
            ∨ ∃ k < frameLength (underValidation i s),
              t = raise .shortRead { s with source := s.source.drop k, readDraw := none }))
      ∨ (s.phase = .check ∧ validatesUnder i (underValidation i s) s ∧ t = checkStep i.op (underValidation i s) s)
      ∨ (s.phase = .dec ∧ (i = .decode ∨ i = .read) ∧ t = decStep s)
      ∨ (s.phase = .conv ∧ (i = .decode ∨ i = .read) ∧ t = convStep s)
      ∨ (s.phase = .aqi1 ∧ ∃ p d, i.pairOperand = some (p, d) ∧ t = aqi1Step p d s) := by
  have next : ∀ {u : State}, exec i s = .next u → t = u := fun e => by
    rw [e] at h
    injection h with h
    exact h.symm
  rcases exec_in_flow (exec_next_in_flow hp h) with ⟨hq, hi, e⟩ | ⟨hq, hv, e⟩ | ⟨hq, hv, e⟩ | ⟨hq, hv, e⟩ | ⟨hq, hi, e⟩ |
    ⟨hq, hi, e⟩ | ⟨hq, p, d, hi, e⟩
  · exact .inl ⟨hq, hi, next e⟩
  · exact .inr (.inl ⟨hq, hv, next e⟩)
  · by_cases hl : s.source.length < frameLength (underValidation i s)
    · rw [e] at h
      simp [xferStep, hl] at h
    · rcases xferStep_cases _ s (not_lt.1 hl) with f | ⟨k, -, hk, -, f⟩
      · exact .inr (.inr (.inl ⟨hq, hv, not_lt.1 hl, .inl (next (e.trans f))⟩))
      · exact .inr (.inr (.inl ⟨hq, hv, not_lt.1 hl, .inr ⟨k, hk, next (e.trans f)⟩⟩))
  · exact .inr (.inr (.inr (.inl ⟨hq, hv, next e⟩)))
  · exact .inr (.inr (.inr (.inr (.inl ⟨hq, hi, next e⟩))))
  · exact .inr (.inr (.inr (.inr (.inr (.inl ⟨hq, hi, next e⟩)))))
  · exact .inr (.inr (.inr (.inr (.inr (.inr ⟨hq, p, d, hi, next e⟩)))))

/-! ### The invariant, in the two shapes a step leaves -/

/-- An idle core meets the invariant with the five facts that do not speak of a command in progress. -/
theorem inv_of_idle {t : State} (hf : Memory.wf t.frame = true) (hd : t.dcnt.toNat ≤ 32)
    (he : errProduced t.err = true) (hp : t.phase = .idle) (hr : t.reading.scored = true)
    (hs : isScore t.result = true) : Inv t := by
  constructor <;> first | assumption | simp [hp]

/-- A busy core meets the invariant when the one command in CMDL does. -/
theorem inv_of_busy {t : State} {i : Instr} (hc : decodeWord t.cmdl = .ok i) (hw : inFlow i t.phase = true)
    (hf : Memory.wf t.frame = true) (hd : t.dcnt.toNat ≤ 32) (hdone : t.done = false) (he : t.err = 0)
    (hr : t.reading.scored = true) (hs : isScore t.result = true)
    (hx : t.phase = .xfer → frameLength (underValidation i t) ≤ t.source.length)
    (hv : t.phase = .dec ∨ t.phase = .conv → t.fvalid = true)
    (hg : (t.phase = .scan → t.pvalid = false)
      ∧ (i.op = .validate ∨ i.op = .read → t.phase ≠ .dec → t.phase ≠ .conv → t.fvalid = false)
      ∧ (i.op = .decode ∨ i.op = .read → t.rvalid = false)) : Inv t := by
  have only : ∀ j, decodeWord t.cmdl = .ok j → j = i := fun j h => by
    rw [hc] at h
    injection h with h
    exact h.symm
  exact ⟨hf, hd, by rw [he]; decide, fun _ => ⟨i, hc, hw⟩, fun _ => ⟨hdone, he⟩, fun hp j hj => only j hj ▸ hx hp, hv,
    fun _ j hj => only j hj ▸ hg, hr, hs⟩

/-! ### Runs -/

@[simp] theorem garbage_nil : garbage [] = 0 := rfl

theorem garbage_cons_of_marker {b : Byte} {q : List Byte} {p : ProtocolKind} (h : markerOf b = some p) :
    garbage (b :: q) = 0 := by simp [garbage, h]

theorem garbage_cons_of_none {b : Byte} {q : List Byte} (h : markerOf b = none) :
    garbage (b :: q) = garbage q + 1 := by simp [garbage, h]

@[simp] theorem runSteps_zero (s : State) : runSteps 0 s = .next s := rfl

theorem runSteps_succ {k : Nat} {s t : State} (h : step s = .next t) : runSteps (k + 1) s = runSteps k t := by
  have e : Sys2Proof.core.step s = .next t := h
  simp only [runSteps, Host.Core.run, e]
  rfl

/-- With nothing on the agenda an idle core waits (10_state.md R28). -/
theorem step_idle {s : State} (hp : s.phase = .idle) (ha : s.agenda = []) : step s = .next s :=
  step_moves (by rw [nextTurn_nil ha]; rcases coreTurn_cases s with ⟨-, e⟩ | ⟨i, h, -, -⟩ | ⟨r, h, -, -⟩
                 · exact e
                 · exact absurd hp h
                 · exact absurd hp h)

theorem runSteps_idle {k : Nat} {s : State} (hp : s.phase = .idle) (ha : s.agenda = []) :
    runSteps k s = .next s := by
  induction k with
  | zero => rfl
  | succ k ih => rw [runSteps_succ (step_idle hp ha), ih]

/-- With nothing on the agenda a busy core runs the command CMDL holds. -/
theorem step_busy {s : State} {i : Instr} (hp : s.phase ≠ .idle) (ha : s.agenda = [])
    (hd : decodeWord s.cmdl = .ok i) : step s = exec i s := by
  refine step_runs ?_
  rw [nextTurn_nil ha]
  unfold coreTurn
  rw [busy_eq_true.2 hp, hd]
  rfl

end Sys2Proof.Machine
end

