-- ==== Sys2Proof/Tests/Slice0.lean ====
section
/-! SUPPORT. The model's own tests. Expected results are the spec's: 30_encoding.md R104 for the words, the vectors of
95_test_vectors.md (named in each test) for the rest. Then one witness for each statement that has hypotheses: a concrete
state and operands that meet all of them, each clause at its boundary. -/

namespace Sys2Proof.Tests

set_option Elab.async false

open Sys2Proof.Machine

/-! ### Helpers -/

/-- A core at a phase with a command word in CMDL, every other register as after reset. -/
def inPhase (p : Phase) (w : Byte) : State := { State.reset with phase := p, cmdl := w }

/-- The outcome is a next state of which `p` holds. -/
def nextHas (o : Host.Outcome State Fault Refusal) (p : State → Bool) : Bool :=
  match o with
  | .next s => p s
  | .fault _ => false
  | .refused _ => false

/-- Frame A of 95_test_vectors.md section 2.1 with byte 5 as given: 0x05 in frame A, 0x04 in vector V-VAL-8. -/
def frameA (byte5 : Byte) : List Byte :=
  [0x42, 0x4D, 0x00, 0x1C, 0x00, byte5, 0x00, 0x08, 0x00, 0x09, 0x00, 0x05, 0x00, 0x08, 0x00, 0x09]
    ++ [0x04, 0x3B, 0x01, 0x2F, 0x00, 0x2D, 0x00, 0x05, 0x00, 0x02, 0x00, 0x00, 0x97, 0x00, 0x02, 0x11]

/-- Frame C of 95_test_vectors.md section 2.1. -/
def frameC : List Byte :=
  [0x16, 0x11, 0x0B, 0x00, 0x00, 0x00, 0x2A, 0x00, 0x00, 0x03, 0xE8, 0x00, 0x00, 0x00, 0x5A, 0x00, 0x00, 0x00, 0x1E, 0x41]

/-- FRAME holding the given bytes, the rest 0x00. -/
def inFrame (bytes : List Byte) : Memory := Memory.writeBytes [] 0 bytes

/-! ### Ill-formed terms, one for each check

`Instr.wellFormed` has none: a command's operands are fixed by its constructor, so every term of `Instr` passes
(Sys2Proof/Laws/Decode.lean, `instr_wellFormed`). -/

theorem test_reservedClear_refuses : (splitWord 0x41).reservedClear = false := by decide
theorem test_opDefined_refuses_zero : (splitWord 0x00).opDefined = false := by decide
theorem test_opDefined_refuses_six : (splitWord 0x06).opDefined = false := by decide
theorem test_protocolInPlace_refuses : (splitWord 0x09).protocolInPlace = false := by decide
theorem test_pairInPlace_refuses : (splitWord 0x12).pairInPlace = false := by decide
theorem test_wellFormed_refuses : (splitWord 0x2A).wellFormed = false := by decide
theorem test_band_refuses : Config.Band.wellFormed ⟨10, 10, 0, 50⟩ = false := by decide
theorem test_bandsJoin_refuses_gap : Config.bandsJoin [⟨0, 10, 0, 50⟩, ⟨11, 20, 51, 100⟩] = false := by decide
theorem test_table_refuses_six_bands : Config.tableWellFormed (Config.tablePm25Us.take 6) = false := by decide
theorem test_table_refuses_start : Config.tableWellFormed (⟨1, 121, 0, 50⟩ :: Config.tablePm25Us.tail) = false := by
  decide
theorem test_action_refuses_long_short : (AgentAction.failRead 32).wellFormed = false := by decide
theorem test_action_refuses_consumer : AgentAction.foreignPop.wellFormed = false := by decide
theorem test_action_refuses_wide_command : (AgentAction.hostWrite 0x00 0x101).wellFormed = false := by decide

/-! ### Every constructor's word, bit by bit from the opcode map (R104), and words that are none (V-CMD-2) -/

theorem test_decode_sync : decodeTableWord 8 0b00000001 = some .sync := by decide
theorem test_decode_validateP : decodeTableWord 8 0b00000010 = some .validateP := by decide
theorem test_decode_validateC : decodeTableWord 8 0b00001010 = some .validateC := by decide
theorem test_decode_decode : decodeTableWord 8 0b00000011 = some .decode := by decide
theorem test_decode_aqiPm25Us : decodeTableWord 8 0b00000100 = some .aqiPm25Us := by decide
theorem test_decode_aqiPm10Us : decodeTableWord 8 0b00010100 = some .aqiPm10Us := by decide
theorem test_decode_aqiPm25Cn : decodeTableWord 8 0b00100100 = some .aqiPm25Cn := by decide
theorem test_decode_aqiPm10Cn : decodeTableWord 8 0b00110100 = some .aqiPm10Cn := by decide
theorem test_decode_read : decodeTableWord 8 0b00000101 = some .read := by decide

theorem test_illegal_words :
    ∀ w ∈ ([0x00, 0x06, 0x07, 0x08, 0x09, 0x0B, 0x0C, 0x12, 0x13, 0x15, 0x1C, 0x23, 0x2A, 0x40, 0x41, 0x81, 0xFF] : List Byte),
      legalWord w = false := by decide

theorem test_fetch_runs : nextHas (step (State.reset.withFetchWord 8 0x0A))
    (fun s => s.cmdl == 0x0A && s.phase == .avail) = true := by decide

/-! ### One step of each command -/

/-- V-SYNC-3: the first byte is no marker, it is discarded and counted. -/
theorem test_sync_discards : nextHas (exec .sync { inPhase .scan 0x01 with source := [0x00, 0x00, 0x42, 0x4D] })
    (fun s => s.source == [0x00, 0x42, 0x4D] && s.dcnt == 1 && s.phase == .scan) = true := by decide

/-- V-SYNC-5: with 32 bytes discarded the marker at the head is not looked at. -/
theorem test_sync_budget_first : nextHas (exec .sync { inPhase .scan 0x01 with source := [0x42], dcnt := 32 })
    (fun s => statusWord s == 0x0006 && s.source == [0x42]) = true := by decide

/-- V-VAL-4: 31 bytes of a PlantowerPM frame. -/
theorem test_validateP_incomplete :
    nextHas (exec .validateP { inPhase .avail 0x02 with source := (frameA 0x05).take 31 })
      (fun s => statusWord s == 0x000E && s.source.length == 31) = true := by decide

/-- V-VAL-8: one bit of byte 5 flipped. -/
theorem test_validateP_badChecksum : nextHas (exec .validateP { inPhase .check 0x02 with frame := inFrame (frameA 0x04) })
    (fun s => statusWord s == 0x001A && s.acc == 0x0210) = true := by decide +kernel

/-- V-VAL-3: 20 bytes go into FRAME and the other 12 read 0, whatever stood there. -/
theorem test_validateC_clears_the_rest :
    nextHas (exec .validateC { inPhase .xfer 0x0A with frame := inFrame (frameA 0x05), source := frameC ++ [0x99] })
      (fun s => s.frame == inFrame frameC && s.source == [0x99]) = true := by decide +kernel

/-- V-VAL-3: frame C passes under an 8-bit sum of 0. -/
theorem test_validateC_ok : nextHas (exec .validateC { inPhase .check 0x0A with frame := inFrame frameC })
    (fun s => statusWord s == 0x0302 && s.acc == 0x0000) = true := by decide +kernel

/-- V-DEC-1: fields of frame A. -/
theorem test_decode_fields : nextHas (exec .decode { inPhase .dec 0x03 with frame := inFrame (frameA 0x05), fvalid := true })
    (fun s => s.reading.cnt03 == 1083 && s.reading.rsvd == 38656 && s.reading.checksum == 529) = true := by
  decide +kernel

/-- V-CMD-6: DECODE with nothing validated. -/
theorem test_decode_errSeq : nextHas (exec .decode State.reset)
    (fun s => statusWord s == 0x003A && s.cmdl == 0x03 && s.phase == .idle) = true := by decide

/-- An AQI command's step on an operand pattern leaves a score in RESULT. -/
def scores (i : Instr) (operand : Word) (score : Word) : Bool :=
  nextHas (exec i { inPhase .aqi1 (encodeWord i) with operand := operand }) fun s => s.result == score

/-- V-AQI-4, V-AQI-8: 0.7 as binary32 is below 0.7 and truncates to 0.6; 12.05 truncates to 12.0. -/
theorem test_aqiPm25Us_truncates :
    (scores .aqiPm25Us 0x3F333333 2 && scores .aqiPm25Us 0x4140CCCD 50) = true := by decide +kernel

/-- V-SRC-5, V-AQI-28: 12.1 belongs to band 2; 1000 is out of range. -/
theorem test_aqiPm25Us_bounds :
    (scores .aqiPm25Us 0x4141999A 51 && scores .aqiPm25Us 0x447A0000 99999) = true := by decide +kernel

/-- V-AQI-36, V-AQI-40: 54.9 is not truncated below its band's value; 154.0. -/
theorem test_aqiPm10Us_inside :
    (scores .aqiPm10Us 0x425B999A 50 && scores .aqiPm10Us 0x431A0000 100) = true := by decide +kernel

/-- V-AQI-52: the top of a US table is outside it. -/
theorem test_aqiPm10Us_top : scores .aqiPm10Us 0x44174000 99999 = true := by decide +kernel

/-- V-SRC-6, V-AQI-60: 35 belongs to band 1; 35.04 is not truncated and belongs to band 2. -/
theorem test_aqiPm25Cn_join :
    (scores .aqiPm25Cn 0x420C0000 50 && scores .aqiPm25Cn 0x420C28F6 51) = true := by decide +kernel

/-- V-AQI-56: a tie goes away from zero. -/
theorem test_aqiPm25Cn_tie : scores .aqiPm25Cn 0x3FE00000 3 = true := by decide +kernel

/-- V-SRC-7, V-AQI-80: 1000 is out of range; a tie to an even number still goes up. -/
theorem test_aqiPm10Cn_range_and_tie :
    (scores .aqiPm10Cn 0x447A0000 99999 && scores .aqiPm10Cn 0x41C40000 25) = true := by decide +kernel

/-- V-SRC-10, V-AQI-100: −5 gives 0, a quiet NaN 99999. -/
theorem test_aqiPm10Cn_special :
    (scores .aqiPm10Cn 0xC0A00000 0 && scores .aqiPm10Cn 0x7FC00000 99999) = true := by decide +kernel

/-- V-READ-2: READ goes on to AVAIL at a CubicPM1006 marker, which stays in the byte source. -/
theorem test_read_marker : nextHas (exec .read { inPhase .scan 0x05 with source := frameC })
    (fun s => s.phase == .avail && s.proto == .cubicPM1006 && s.pvalid && s.source == frameC) = true := by decide

/-- V-READ-3: the scores of PM25_ENV = 45 and PM10_ENV = 170. -/
theorem test_read_scores :
    nextHas (exec .read
        { inPhase .conv 0x05 with reading := { Reading.zero with pm25Env := 45, pm10Env := 170 } })
      (fun s => s.reading.aqiPm25Us == 124 && s.reading.aqiPm10Us == 108 && s.reading.aqiPm25Cn == 63
        && s.reading.aqiPm10Cn == 111 && s.rvalid && s.done) = true := by decide +kernel

/-- V-CMD-1: an illegal word after reset. -/
theorem test_illegal_status : nextHas (step (State.reset.withFetchWord 8 0x00)) (fun s => statusWord s == 0x003E) = true := by
  decide

/-! ### Witnesses -/

theorem witness_DecodeAndEncodeAgree : decode [0x0A, 0xFF] = .ok (.validateC, [0xFF]) := by rfl

theorem witness_StepRunsTheCommand_issue :
    { State.reset with agenda := [.hostWrite 0x00 (BitVec.setWidth 32 (0x34 : Byte)), .core] }.phase = .idle
      ∧ decodeWord 0x34 = .ok .aqiPm10Cn := by decide

theorem witness_StepRunsTheCommand_turn :
    (inPhase .scan 0x05).phase ≠ .idle ∧ (inPhase .scan 0x05).agenda = []
      ∧ decodeWord (inPhase .scan 0x05).cmdl = .ok .read
      ∧ { inPhase .scan 0x05 with agenda := [.core, .reset] }.agenda = .core :: [.reset] := by decide

theorem witness_StepRunsTheCommand_wait :
    State.reset.phase = .idle ∧ State.reset.agenda = []
      ∧ { State.reset with agenda := [.core] }.agenda = .core :: [] := by decide

theorem witness_WritesWhileBusyAreIgnored :
    { inPhase .scan 0x05 with agenda := [.hostWrite 0x02 0x41400000] }.phase ≠ .idle
      ∧ { inPhase .scan 0x05 with agenda := [.hostWrite 0x02 0x41400000] }.agenda = .hostWrite 0x02 0x41400000 :: [] := by
  decide

theorem witness_IllegalWordEndsWithErrIllegal :
    { State.reset with agenda := [.hostWrite 0x00 0xFF] }.phase = .idle
      ∧ { State.reset with agenda := [.hostWrite 0x00 0xFF] }.agenda
        = .hostWrite 0x00 (BitVec.setWidth 32 (0xFF : Byte)) :: []
      ∧ legalWord 0xFF = false := by decide

theorem witness_IdleWritesReachOnlyOperand :
    ∀ idx ∈ ([0x01, 0x02, 0x03, 0xFF] : List Byte),
      { State.reset with agenda := [.hostWrite idx 7] }.phase = .idle
        ∧ { State.reset with agenda := [.hostWrite idx 7] }.agenda = .hostWrite idx 7 :: [] ∧ idx ≠ 0x00 := by decide

/-- Both ends of every range of the register map, each in exactly one clause. -/
theorem witness_IdleReadsReturnTheRegisterMap :
    ∀ idx ∈ ([0x00, 0x01, 0x02, 0x05, 0x06, 0x0F, 0x10, 0x22, 0x23, 0x3F, 0x40, 0x5F, 0x60, 0xFF] : List Byte),
      { State.reset with agenda := [.hostRead idx] }.phase = .idle
        ∧ { State.reset with agenda := [.hostRead idx] }.agenda = .hostRead idx :: [] := by decide

/-- Both ends of every range of the register map, busy and idle: STATUS, the indices that read 0, the guarded ones. -/
theorem witness_ReadsHaveNoSideEffect :
    (∀ idx ∈ ([0x00, 0x06, 0x0F, 0x23, 0x3F, 0x60, 0xFF] : List Byte),
        idx = 0x00 ∨ (0x06 ≤ idx.toNat ∧ idx.toNat ≤ 0x0F) ∨ (0x23 ≤ idx.toNat ∧ idx.toNat ≤ 0x3F) ∨ 0x60 ≤ idx.toNat)
      ∧ (∀ idx ∈ ([0x02, 0x05, 0x10, 0x22, 0x40, 0x5F] : List Byte),
        (0x02 ≤ idx.toNat ∧ idx.toNat ≤ 0x05) ∨ (0x10 ≤ idx.toNat ∧ idx.toNat ≤ 0x22)
          ∨ (0x40 ≤ idx.toNat ∧ idx.toNat ≤ 0x5F))
      ∧ (∀ idx ∈ ([0x00, 0x01, 0x02, 0x5F, 0x60] : List Byte),
        { inPhase .scan 0x05 with agenda := [.hostRead idx] }.agenda = .hostRead idx :: [])
      ∧ (inPhase .scan 0x05).phase ≠ .idle ∧ State.reset.phase = .idle := by decide

theorem witness_ArrivalAppendsAtTheTail :
    { inPhase .scan 0x05 with agenda := [.arrive 0x42] }.agenda = .arrive 0x42 :: [] := by decide

theorem witness_ShortReadDrawOnlySetsTheDraw :
    { inPhase .scan 0x05 with agenda := [.failRead 19] }.agenda = .failRead 19 :: [] := by decide

theorem witness_SecondConsumerIsRefused :
    { inPhase .scan 0x05 with agenda := [.foreignPop] }.agenda = .foreignPop :: [] := by decide

theorem witness_ResetClearsTheCoreOnly :
    { inPhase .scan 0x05 with agenda := [.reset], source := [1, 2, 3, 4, 5] }.agenda = .reset :: [] := by decide

theorem witness_IssueOfEveryCommand :
    State.reset.phase = .idle ∧ State.reset.fvalid = false
      ∧ { State.reset with fvalid := true }.phase = .idle ∧ { State.reset with fvalid := true }.fvalid = true
      ∧ legalWord 0x06 = false := by decide

/-- The four arms at the two ends of the budget: 32 discards, 31 with nothing left, with each marker, with another byte. -/
theorem witness_ScanStepOfSyncAndRead :
    (inPhase .scan 0x01).phase = .scan ∧ (32 : BitVec 6) = 32 ∧ (31 : BitVec 6) ≠ 32
      ∧ { inPhase .scan 0x01 with dcnt := 31 }.source = []
      ∧ { inPhase .scan 0x01 with dcnt := 31, source := [0x42] }.source = 0x42 :: []
      ∧ { inPhase .scan 0x01 with dcnt := 31, source := [0x16] }.source = 0x16 :: []
      ∧ { inPhase .scan 0x01 with dcnt := 31, source := [0x43] }.source = 0x43 :: []
      ∧ (0x43 : Byte) ≠ 0x42 ∧ (0x43 : Byte) ≠ 0x16 := by decide

/-- Enough bytes exactly, and one too few, under each command. -/
theorem witness_AvailStepTestsTheFrameLength :
    { inPhase .avail 0x02 with source := frameA 0x05 }.phase = .avail
      ∧ validatesUnder .validateP .plantowerPM { inPhase .avail 0x02 with source := frameA 0x05 }
      ∧ validatesUnder .validateC .cubicPM1006 { inPhase .avail 0x0A with source := frameC.take 19 }
      ∧ validatesUnder .read .plantowerPM { inPhase .avail 0x05 with source := frameA 0x05 } :=
  ⟨rfl, .inl ⟨rfl, rfl⟩, .inr (.inl ⟨rfl, rfl⟩), .inr (.inr ⟨rfl, rfl⟩)⟩

theorem witness_AvailableCountMaySaturate :
    6 ≤ 6 ∧ (inPhase .avail 0x0A).phase = .avail ∧ validatesUnder .validateC .cubicPM1006 (inPhase .avail 0x0A) :=
  ⟨le_rfl, rfl, .inr (.inl ⟨rfl, rfl⟩)⟩

/-- The transport's three draws: none, a `k` that is no short read, the largest short read. -/
theorem witness_XferStepMovesTheFrame :
    (inPhase .xfer 0x0A).phase = .xfer
      ∧ validatesUnder .validateC .cubicPM1006 { inPhase .xfer 0x0A with source := frameC }
      ∧ frameLength .cubicPM1006 ≤ frameC.length ∧ Memory.wf State.reset.frame = true
      ∧ { inPhase .xfer 0x0A with source := frameC }.readDraw = none
      ∧ { inPhase .xfer 0x0A with source := frameC, readDraw := some 20 }.readDraw = some 20
      ∧ frameLength .cubicPM1006 ≤ 20
      ∧ { inPhase .xfer 0x0A with source := frameC, readDraw := some 19 }.readDraw = some 19
      ∧ 19 < frameLength .cubicPM1006 :=
  ⟨rfl, .inr (.inl ⟨rfl, rfl⟩), by decide, rfl, rfl, rfl, by decide, rfl, by decide⟩

theorem witness_CheckStepHeaderThenSum :
    (inPhase .check 0x02).phase = .check ∧ validatesUnder .validateP .plantowerPM (inPhase .check 0x02)
      ∧ headerOk .plantowerPM (inFrame frameC) = false
      ∧ headerOk .plantowerPM (inFrame (frameA 0x04)) = true ∧ checksumOk .plantowerPM (inFrame (frameA 0x04)) = false
      ∧ headerOk .plantowerPM (inFrame (frameA 0x05)) = true ∧ checksumOk .plantowerPM (inFrame (frameA 0x05)) = true :=
  ⟨rfl, .inl ⟨rfl, rfl⟩, by decide +kernel, by decide +kernel, by decide +kernel, by decide +kernel, by decide +kernel⟩

theorem witness_CheckStepHeaderThenSum_read :
    validatesUnder .read .cubicPM1006 { inPhase .check 0x05 with frame := inFrame frameC, proto := .cubicPM1006 }
      ∧ headerOk .cubicPM1006 (inFrame frameC) = true ∧ checksumOk .cubicPM1006 (inFrame frameC) = true :=
  ⟨.inr (.inr ⟨rfl, rfl⟩), by decide +kernel, by decide +kernel⟩

theorem witness_DecStepOfAPlantowerFrame :
    (Instr.read = .decode ∨ Instr.read = .read) ∧ (inPhase .dec 0x05).phase = .dec
      ∧ (inPhase .dec 0x05).fproto = .plantowerPM := by decide

theorem witness_DecStepOfACubicFrame :
    (Instr.decode = .decode ∨ Instr.decode = .read) ∧ (inPhase .dec 0x03).phase = .dec
      ∧ { inPhase .dec 0x03 with fproto := .cubicPM1006 }.fproto = .cubicPM1006 := by decide

theorem witness_ConvStepFillsTheScores :
    (Instr.decode = .decode ∨ Instr.decode = .read) ∧ (inPhase .conv 0x03).phase = .conv := by decide

theorem witness_Aqi1StepWritesResult : (inPhase .aqi1 0x14).phase = .aqi1 := by decide

theorem witness_StopsOutsideTheFlow :
    (inPhase .scan 0x02).phase ≠ .idle ∧ inFlow .validateP (inPhase .scan 0x02).phase = false
      ∧ (inPhase .xfer 0x02).phase = .xfer ∧ validatesUnder .validateP .plantowerPM (inPhase .xfer 0x02)
      ∧ (inPhase .xfer 0x02).source.length < frameLength .plantowerPM :=
  ⟨by decide, by decide, rfl, .inl ⟨rfl, rfl⟩, by decide⟩

/-- The NaN with the smallest fraction, and both zeros, of either sign. -/
theorem witness_SpecialOperands :
    (0x7F800001 : Word).toNat / 2 ^ 23 % 256 = 255 ∧ (0x7F800001 : Word).toNat % 2 ^ 23 ≠ 0
      ∧ (0x80000000 : Word).toNat / 2 ^ 23 % 256 = 0 ∧ (0x007FFFFF : Word).toNat / 2 ^ 23 % 256 = 0 := by decide

/-- Just below 0; band 1 of PM2.5-US at 0, and band 2 where band 1 ends (12.15 truncates to 12.1); PM10-US just below its top;
the top of PM2.5-US. -/
theorem witness_UsScores :
    (-1 / 1000 : ℚ) < 0
      ∧ (∀ row ∈ ([(0, 12.1, 0, 50), (12.1, 35.5, 51, 100)] : List (ℚ × ℚ × ℚ × ℚ)),
        row ∈ ([(0, 12.1, 0, 50), (12.1, 35.5, 51, 100), (35.5, 55.5, 101, 150), (55.5, 150.5, 151, 200),
          (150.5, 250.5, 201, 300), (250.5, 350.5, 301, 400), (350.5, 500.5, 401, 500)] : List (ℚ × ℚ × ℚ × ℚ)))
      ∧ (0 : ℚ) ≤ (⌊10 * (0 : ℚ)⌋ : ℚ) / 10 ∧ (⌊10 * (0 : ℚ)⌋ : ℚ) / 10 < 12.1
      ∧ (12.1 : ℚ) ≤ (⌊10 * (12.15 : ℚ)⌋ : ℚ) / 10 ∧ (⌊10 * (12.15 : ℚ)⌋ : ℚ) / 10 < 35.5
      ∧ (505 : ℚ) ≤ 604.99 ∧ (604.99 : ℚ) < 605
      ∧ (500.5 : ℚ) ≤ (⌊10 * (500.5 : ℚ)⌋ : ℚ) / 10 := by decide +kernel

/-- Just below 0; band 1 of PM2.5-China at 0 and at 35, which band 2 leaves to it; just above the top. -/
theorem witness_ChinaScores :
    (-1 / 1000 : ℚ) < 0
      ∧ (∀ row ∈ ([(0, 35, 0, 50), (35, 75, 51, 100)] : List (ℚ × ℚ × ℚ × ℚ)),
        row ∈ ([(0, 35, 0, 50), (35, 75, 51, 100), (75, 115, 101, 150), (115, 150, 151, 200), (150, 250, 201, 300),
          (250, 350, 301, 400), (350, 500, 401, 500)] : List (ℚ × ℚ × ℚ × ℚ)))
      ∧ ((0 : ℚ) < 0 ∨ (0 : ℚ) = 0 ∧ (0 : ℚ) = 0) ∧ (0 : ℚ) ≤ 35
      ∧ ((0 : ℚ) < 35 ∨ (0 : ℚ) = 0 ∧ (35 : ℚ) = 0) ∧ (35 : ℚ) ≤ 35
      ∧ ¬((35 : ℚ) < 35 ∨ (35 : ℚ) = 0 ∧ (35 : ℚ) = 0) ∧ (500 : ℚ) < 500.01 := by decide +kernel

theorem witness_ScoresAreMonotone :
    (∀ t < 4, Config.tableWellFormed (Config.aqiTable t) = true ∧ ∀ b ∈ Config.aqiTable t, b.ah ≤ 99999)
      ∧ (12 : ℚ) ≤ 121 / 10 := ⟨by decide, by decide +kernel⟩

/-- The tenth that two closed bands share goes to the first; in a US table it goes to the second. 12.15 truncates to 121
tenths. -/
theorem witness_IntegerFormForTenths :
    Config.tablePm25Cn.find? (fun b => decide (b.cl10 ≤ 350) && decide (350 ≤ b.ch10)) = some ⟨0, 350, 0, 50⟩
      ∧ (35 : ℚ) = ((350 : ℕ) : ℚ) / 10
      ∧ Config.tablePm25Us.find? (fun b => decide (b.cl10 ≤ 121) && decide (121 < b.ch10)) = some ⟨121, 355, 51, 100⟩
      ∧ (⌊10 * (1215 / 100 : ℚ)⌋ : ℚ) / 10 = ((121 : ℕ) : ℚ) / 10 := by decide +kernel

theorem witness_LawsOfTheSums :
    7650 < (Memory.read (inFrame (List.replicate 32 0xFF)) 30).toNat * 256 + (Memory.read (inFrame (List.replicate 32 0xFF)) 31).toNat
      ∧ Memory.wf (inFrame (frameA 0x05)) = true ∧ 6 < 30 ∧ 29 < 30 ∧ 19 < 20 := by decide +kernel

theorem witness_SingleBitErrorsOfPlantowerFrames :
    { inPhase .check 0x02 with frame := inFrame (frameA 0x05) }.phase = .check ∧ Memory.wf (inFrame (frameA 0x05)) = true
      ∧ headerOk .plantowerPM (inFrame (frameA 0x05)) = true ∧ checksumOk .plantowerPM (inFrame (frameA 0x05)) = true
      ∧ 31 < 32 ∧ 7 < 8 := by decide +kernel

theorem witness_SingleBitErrorsOfCubicFrames :
    { inPhase .check 0x0A with frame := inFrame frameC }.phase = .check ∧ Memory.wf (inFrame frameC) = true
      ∧ headerOk .cubicPM1006 (inFrame frameC) = true ∧ checksumOk .cubicPM1006 (inFrame frameC) = true
      ∧ 19 < 20 ∧ 7 < 8 := by decide +kernel

/-- V-SYNC-4, V-SYNC-9 and V-SYNC-10: 31 bytes before the marker, 32 bytes and none, 31 bytes and none. -/
theorem witness_SyncRunsToItsEnd :
    { State.reset with agenda := [.hostWrite 0x00 0x01] }.phase = .idle
      ∧ { State.reset with agenda := [.hostWrite 0x00 0x01] }.agenda = [.hostWrite 0x00 0x01]
      ∧ garbage (List.replicate 31 0x55 ++ [0x42]) = 31
      ∧ (List.replicate 31 0x55 ++ [0x42] : List Byte).drop 31 = 0x42 :: [] ∧ markerOf 0x42 = some .plantowerPM
      ∧ garbage (List.replicate 32 0x55) = 32 ∧ garbage (List.replicate 31 0x55) = 31
      ∧ (List.replicate 31 0x55 : List Byte).length = 31 := by decide

/-- V-VAL-5, V-VAL-14, V-VAL-15 and V-VAL-3. -/
theorem witness_ValidateRunsToItsEnd :
    { State.reset with agenda := [.hostWrite 0x00 ((encodeWord .validateC).setWidth 32)] }.readDraw = none
      ∧ (frameC.take 19).length < frameLength .cubicPM1006 ∧ frameLength .cubicPM1006 ≤ frameC.length
      ∧ headerOk .cubicPM1006 (frameOf [] 20 (frameC.set 2 0x0A)) = false
      ∧ headerOk .cubicPM1006 (frameOf [] 20 (frameC.set 6 0x2B)) = true
      ∧ checksumOk .cubicPM1006 (frameOf [] 20 (frameC.set 6 0x2B)) = false
      ∧ headerOk .cubicPM1006 (frameOf [] 20 frameC) = true ∧ checksumOk .cubicPM1006 (frameOf [] 20 frameC) = true := by
  decide +kernel

theorem witness_DecodeRunsToItsEnd :
    { State.reset with fvalid := true, agenda := [.hostWrite 0x00 0x03] }.phase = .idle
      ∧ { State.reset with fvalid := true, agenda := [.hostWrite 0x00 0x03] }.fvalid = true
      ∧ { State.reset with fvalid := true, agenda := [.hostWrite 0x00 0x03] }.agenda = [.hostWrite 0x00 0x03] := by decide

theorem witness_AqiLineRunsToItsEnd :
    Instr.aqiPm10Cn.pairOperand = some (.pm10, .china)
      ∧ { State.reset with
            agenda := [.hostWrite 0x02 0x447A0000, .hostWrite 0x00 ((encodeWord .aqiPm10Cn).setWidth 32)] }.phase = .idle := by
  decide

/-- V-READ-16, V-READ-13's shape, V-READ-15, V-READ-7, V-READ-14 and V-READ-10. -/
theorem witness_ReadRunsToItsEnd :
    { State.reset with agenda := [.hostWrite 0x00 0x05] }.readDraw = none
      ∧ garbage (List.replicate 32 0x55 ++ frameA 0x05) = 32
      ∧ garbage (List.replicate 13 0x55) = 13
      ∧ garbage (List.replicate 31 0x55 ++ frameA 0x05) = 31
      ∧ (List.replicate 31 0x55 ++ frameA 0x05).drop 31 = 0x42 :: (frameA 0x05).tail
      ∧ markerOf 0x42 = some .plantowerPM
      ∧ ((frameA 0x05).take 31).length < frameLength .plantowerPM
      ∧ frameLength .plantowerPM ≤ (frameA 0x05).length
      ∧ headerOk .plantowerPM (frameOf [] 32 ((frameA 0x05).set 1 0x4C)) = false
      ∧ checksumOk .plantowerPM (frameOf [] 32 (frameA 0x04)) = false
      ∧ headerOk .plantowerPM (frameOf [] 32 (frameA 0x04)) = true
      ∧ checksumOk .plantowerPM (frameOf [] 32 (frameA 0x05)) = true
      ∧ headerOk .plantowerPM (frameOf [] 32 (frameA 0x05)) = true := by decide +kernel

/-- Draws of both kinds, 31 a short read of 32 bytes and 32 none, under VALIDATE.P and under a READ with 31 bytes before the
marker. -/
theorem witness_ShortReadEndsValidateAndRead :
    (Instr.validateP = .validateP ∧ ProtocolKind.plantowerPM = .plantowerPM)
      ∧ { State.reset with agenda := [.hostWrite 0x00 ((encodeWord .validateP).setWidth 32)] }.phase = .idle
      ∧ { State.reset with readDraw := some 31 }.readDraw = some 31 ∧ 31 < frameLength .plantowerPM
      ∧ { State.reset with readDraw := some 32 }.readDraw = some 32 ∧ ¬32 < frameLength .plantowerPM
      ∧ frameLength .plantowerPM ≤ (frameA 0x05).length
      ∧ { State.reset with agenda := [.hostWrite 0x00 0x05] }.phase = .idle
      ∧ garbage (List.replicate 31 0x55 ++ frameA 0x05) = 31
      ∧ (List.replicate 31 0x55 ++ frameA 0x05).drop 31 = 0x42 :: (frameA 0x05).tail
      ∧ markerOf 0x42 = some .plantowerPM ∧ frameLength .plantowerPM ≤ (0x42 :: (frameA 0x05).tail).length := by
  decide +kernel

/-- Two idle cores that differ in everything but the byte source and the draw. -/
theorem witness_CommandsAreIndependentOfHistory :
    (Instr.read = .sync ∨ Instr.read = .validateP ∨ Instr.read = .validateC ∨ Instr.read = .read)
      ∧ State.reset.phase = .idle ∧ { State.reset with frame := inFrame frameC, pvalid := true, acc := 7 }.phase = .idle
      ∧ Memory.wf State.reset.frame = true ∧ Memory.wf (inFrame frameC) = true
      ∧ State.reset.source = { State.reset with frame := inFrame frameC, pvalid := true, acc := 7 }.source
      ∧ State.reset.readDraw = { State.reset with frame := inFrame frameC, pvalid := true, acc := 7 }.readDraw := by
  decide +kernel

/-- A READ about to read its frame, with bytes enough and the marker at the head. -/
def reading20 : State :=
  { inPhase .xfer 0x05 with pvalid := true, proto := .cubicPM1006, source := frameC }

theorem inv_reading20 : Inv reading20 :=
  inv_of_busy (i := .read) rfl rfl rfl (by decide) rfl rfl rfl rfl (by decide) (by decide) (by decide)

theorem witness_EveryStepKeepsTheInvariant :
    Inv reading20 ∧ nextHas (step reading20) (fun t => t.phase == .check) = true := ⟨inv_reading20, by decide +kernel⟩

theorem witness_TheMarkerIsKeptThroughARead :
    Inv reading20 ∧ MarkerKept reading20 ∧ nextHas (step reading20) (fun t => t.phase == .check) = true :=
  ⟨inv_reading20, ⟨fun _ _ => ⟨rfl, 0x16, rfl, rfl⟩, by decide, by decide⟩, by decide +kernel⟩

/-- V-READ-12: under a false marker the header check fails in a later byte. -/
theorem witness_TheMarkerIsKeptThroughARead_check :
    let s := { inPhase .check 0x05 with pvalid := true, proto := .cubicPM1006, frame := inFrame [0x16, 0x42, 0x4D] }
    MarkerKept s ∧ decodeWord s.cmdl = .ok .read ∧ s.phase = .check ∧ headerOk s.proto s.frame = false :=
  ⟨⟨by decide, fun _ _ => ⟨rfl, rfl⟩, by decide⟩, rfl, rfl, rfl⟩

theorem witness_NoStepStops : Inv reading20 ∧ ∀ rest, reading20.agenda ≠ .foreignPop :: rest :=
  ⟨inv_reading20, fun _ => nofun⟩

theorem witness_PhaseAdvancesOnlyAsListed :
    Inv reading20 ∧ reading20.phase ≠ .idle ∧ reading20.agenda = []
      ∧ nextHas (step reading20) (fun t => t.phase == .check) = true := ⟨inv_reading20, nofun, rfl, by decide +kernel⟩

theorem witness_PhaseAdvancesOnlyAsListed_others :
    { reading20 with agenda := [.arrive 0x42] }.agenda = .arrive 0x42 :: [] ∧ AgentAction.arrive 0x42 ≠ .core
      ∧ AgentAction.arrive 0x42 ≠ .reset ∧ { reading20 with agenda := [.reset] }.agenda = .reset :: [] := by
  decide +kernel

theorem witness_EveryCommandEnds : Inv reading20 ∧ reading20.phase ≠ .idle ∧ reading20.agenda = [] :=
  ⟨inv_reading20, nofun, rfl⟩

/-- Each register changed by its writer (FRAME here; the others in `witness_writers`). -/
theorem witness_EachRegisterHasItsWriter :
    (∀ rest, reading20.agenda ≠ .reset :: rest)
      ∧ nextHas (step reading20) (fun t => t.frame != reading20.frame) = true := ⟨fun _ => nofun, by decide +kernel⟩

theorem witness_writers :
    (nextHas (step { inPhase .dec 0x03 with frame := inFrame frameC, fproto := .cubicPM1006 })
        (fun t => t.reading != Reading.zero)
      && nextHas (step { inPhase .aqi1 0x34 with operand := 0x41C40000 }) (fun t => t.result != 0)
      && nextHas (step { inPhase .check 0x02 with frame := inFrame (frameA 0x05) }) (fun t => t.acc != 0)
      && nextHas (step { State.reset with agenda := [.hostWrite 0x02 7] }) (fun t => t.operand != 0)) = true := by
  decide +kernel

theorem witness_FlagsChangeOnlyWhereStated :
    (nextHas (step { inPhase .scan 0x01 with source := [0x16] }) (fun t => t.proto == .cubicPM1006 && t.pvalid)
      && nextHas (step { inPhase .check 0x0A with frame := inFrame frameC }) (fun t => t.fproto == .cubicPM1006 && t.fvalid)
      && nextHas (step { inPhase .dec 0x03 with fvalid := true }) (fun t => t.hasCounts)
      && nextHas (step (inPhase .conv 0x03)) (fun t => t.rvalid)) = true
      ∧ ∀ rest, (inPhase .conv 0x03).agenda ≠ .reset :: rest := ⟨by decide +kernel, fun _ => nofun⟩

theorem witness_TheByteSourceIsAQueue :
    (nextHas (step { State.reset with agenda := [.arrive 7] }) (fun t => t.source == [7])
      && nextHas (step { inPhase .scan 0x01 with source := [0x55, 0x42] }) (fun t => t.source == [0x42])
      && nextHas (step reading20) (fun t => t.source == [])) = true := by decide +kernel

theorem witness_ExactlyOneOfBusyAndDone :
    nextHas (step { State.reset with agenda := [.hostWrite 0x00 (BitVec.setWidth 32 (0x05 : Byte))] })
        (fun t => t.phase == .scan) = true
      ∧ Inv reading20 ∧ (reading20.phase ≠ .idle ↔ reading20.done = false)
      ∧ (∀ rest, reading20.agenda ≠ .reset :: rest) :=
  ⟨by decide, inv_reading20, ⟨fun _ => rfl, fun _ => nofun⟩, fun _ => nofun⟩

/-- A VALIDATE.P about to pass while an older CubicPM1006 Reading is still valid. -/
theorem witness_HasCountsFollowsFprotoWhileRvalid :
    let s := { inPhase .check 0x02 with frame := inFrame (frameA 0x05), fproto := .cubicPM1006, rvalid := true }
    Inv s ∧ (s.rvalid = true → (s.hasCounts = true ↔ s.fproto = .plantowerPM))
      ∧ nextHas (step s) (fun t => t.fproto == .plantowerPM) = true :=
  ⟨inv_of_busy (i := .validateP) rfl rfl (by decide +kernel) (by decide) rfl rfl rfl rfl nofun nofun
      ⟨nofun, fun _ _ _ => rfl, nofun⟩, by decide, by decide +kernel⟩

end Sys2Proof.Tests
end

section
/-! PROOFS. The state machine: what one step can do, the invariant, the rules of PHASE, of the registers and of the
flags, and the register map. The outcomes of a step are listed once, as the relations `CoreStep` and `StepBy`; the statements
about every step go through them case by case. -/

namespace Sys2Proof.Machine

/-! ### Scores (43_aqi.md R210 to R213) -/

/-- Every band of the ROM rises in concentration and in score, and no score of a band exceeds 500. -/
theorem aqiTable_bands :
    ∀ t < 4, ∀ b ∈ Config.aqiTable t, b.cl10 < b.ch10 ∧ b.al < b.ah ∧ b.ah ≤ 500 := by decide

/-- A concentration that matches a band lies between its ends, whichever band test applies (R209). -/
theorem mem_of_inBand {d : Standard} {c : ℚ} {b : Config.Band} (h : inBand d c b = true) :
    concLow b ≤ c ∧ c ≤ concHigh b := by
  cases d
  case us =>
    obtain ⟨hl, hh⟩ := inBand_us.1 h
    exact ⟨hl, hh.le⟩
  case china => exact inBand_china.1 h

/-- Interpolation inside a band stays between the band's scores (R210). -/
theorem lin_mem {c : ℚ} {b : Config.Band} (hc : b.cl10 < b.ch10) (ha : b.al < b.ah)
    (h : concLow b ≤ c ∧ c ≤ concHigh b) : (b.al : ℚ) ≤ lin c b ∧ lin c b ≤ b.ah := by
  obtain ⟨hl, hh⟩ := h
  have width : 0 < concHigh b - concLow b := by
    have : (b.cl10 : ℚ) < b.ch10 := by exact_mod_cast hc
    unfold concHigh concLow
    linarith
  have rise : (0 : ℚ) ≤ b.ah - b.al := by
    have : (b.al : ℚ) < b.ah := by exact_mod_cast ha
    linarith
  have ratio_nonneg : 0 ≤ (c - concLow b) / (concHigh b - concLow b) := div_nonneg (by linarith) width.le
  have ratio_le_one : (c - concLow b) / (concHigh b - concLow b) ≤ 1 := (div_le_one width).2 (by linarith)
  have low := mul_nonneg ratio_nonneg rise
  have high := mul_le_of_le_one_left rise ratio_le_one
  unfold lin
  constructor <;> linarith

/-- Rounding does not leave an interval with integer ends (R211). -/
theorem rnd_toNat_le {x : ℚ} {n : ℕ} (h0 : 0 ≤ x) (h : x ≤ n) : (rnd x).toNat ≤ n := by
  have : rnd x < n + 1 := by
    rw [rnd_of_nonneg h0, Int.floor_lt]
    push_cast
    linarith
  omega

/-- A table's score is at most 500, or OUT_OF_RANGE (R212). -/
theorem scoreIn_range {t : ℕ} (ht : t < 4) (d : Standard) (c : ℚ) :
    scoreIn (Config.aqiTable t) d c ≤ 500 ∨ scoreIn (Config.aqiTable t) d c = 99999 := by
  rcases scoreIn_cases (Config.aqiTable t) d c with ⟨-, e⟩ | ⟨b, hb, -, hin, e⟩ | ⟨-, -, e⟩
  · exact .inl (by omega)
  · obtain ⟨hc, ha, h500⟩ := aqiTable_bands t ht b hb
    obtain ⟨hl, hh⟩ := lin_mem hc ha (mem_of_inBand hin)
    have := rnd_toNat_le (le_trans (Nat.cast_nonneg _) hl) hh
    exact .inl (by omega)
  · exact .inr e

/-- What a conversion returns: 0 to 500, or 99999 (R221). -/
theorem aqi_range (p : Pollutant) (d : Standard) (c : Conc) : aqi p d c ≤ 500 ∨ aqi p d c = 99999 := by
  cases c with
  | finite c => exact scoreIn_range (tableNumber_lt p d) d _
  | posInf => exact .inr rfl
  | negInf => exact .inl (Nat.zero_le _)
  | nan => exact .inr rfl

/-- A score as AQI registers and RESULT hold it is a score (10_state.md R25). -/
theorem isScore_aqiScore (p : Pollutant) (d : Standard) (c : Conc) : isScore (aqiScore p d c) = true := by
  have range := aqi_range p d c
  simp only [isScore, aqiScore, Config.outOfRange, BitVec.toNat_ofNat, Bool.or_eq_true, decide_eq_true_eq, beq_iff_eq]
  omega

/-- CONV leaves scores in all four AQI registers (42_decode.md R186). -/
theorem scored_convert (r : Reading) : (convert r).scored = true := by
  simp [convert, Reading.scored, isScore_aqiScore]

/-! ### What a step of the core can do, one constructor per outcome -/

/-- The outcomes of one step of the core in the course of the command `i` (10_state.md R29), each with its phase, the
commands it belongs to and what of the state selects it. -/
inductive CoreStep (i : Instr) (s : State) : State → Prop
  /-- R131: the budget is spent. -/
  | noStartByte (hp : s.phase = .scan) (hi : i.op = .sync ∨ i.op = .read) (hd : s.dcnt = 32) :
      CoreStep i s (raise .noStartByte s)
  /-- R131: nothing to peek at. -/
  | starved (hp : s.phase = .scan) (hi : i.op = .sync ∨ i.op = .read) (hd : s.dcnt ≠ 32) (hq : s.source = []) :
      CoreStep i s (raise .starved s)
  /-- R131: SYNC ends at a marker. -/
  | synced {b : Byte} {p : ProtocolKind} (hp : s.phase = .scan) (hi : i.op = .sync) (hd : s.dcnt ≠ 32)
      (hb : srcPeek s.source = some b) (hm : markerOf b = some p) :
      CoreStep i s (endOk { s with proto := p, pvalid := true })
  /-- R131: READ goes on at a marker. -/
  | marked {b : Byte} {p : ProtocolKind} (hp : s.phase = .scan) (hi : i.op = .read) (hd : s.dcnt ≠ 32)
      (hb : srcPeek s.source = some b) (hm : markerOf b = some p) :
      CoreStep i s (goto .avail { s with proto := p, pvalid := true })
  /-- R131: a byte that is no marker is discarded. -/
  | discarded {b : Byte} (hp : s.phase = .scan) (hi : i.op = .sync ∨ i.op = .read) (hd : s.dcnt ≠ 32)
      (hb : srcPeek s.source = some b) (hm : markerOf b = none) :
      CoreStep i s { s with source := srcPop s.source, dcnt := s.dcnt + 1 }
  /-- R152: a whole frame is there. -/
  | available (hp : s.phase = .avail) (hi : i.op = .validate ∨ i.op = .read)
      (hl : frameLength (underValidation i s) ≤ s.source.length) : CoreStep i s (goto .xfer s)
  /-- R152: too few bytes. -/
  | incomplete (hp : s.phase = .avail) (hi : i.op = .validate ∨ i.op = .read)
      (hl : s.source.length < frameLength (underValidation i s)) : CoreStep i s (raise .incomplete s)
  /-- R153: the frame is moved into FRAME. -/
  | transferred (hp : s.phase = .xfer) (hi : i.op = .validate ∨ i.op = .read)
      (hl : frameLength (underValidation i s) ≤ s.source.length) :
      CoreStep i s (goto .check
        { s with frame := frameOf s.frame (frameLength (underValidation i s)) s.source
                 source := s.source.drop (frameLength (underValidation i s)), readDraw := none })
  /-- R153: the read-exact fails. -/
  | shortRead {k : Nat} (hp : s.phase = .xfer) (hi : i.op = .validate ∨ i.op = .read)
      (hl : frameLength (underValidation i s) ≤ s.source.length) (hk : k < frameLength (underValidation i s)) :
      CoreStep i s (raise .shortRead { s with source := s.source.drop k, readDraw := none })
  /-- R157: the header is not the protocol's. -/
  | badHeader (hp : s.phase = .check) (hi : i.op = .validate ∨ i.op = .read)
      (hh : headerOk (underValidation i s) s.frame = false) : CoreStep i s (raise .badHeader s)
  /-- R157: the checksum does not match. -/
  | badChecksum (hp : s.phase = .check) (hi : i.op = .validate ∨ i.op = .read)
      (hh : headerOk (underValidation i s) s.frame = true) (hc : checksumOk (underValidation i s) s.frame = false) :
      CoreStep i s (raise .badChecksum { s with acc := frameSum (underValidation i s) s.frame })
  /-- R157: VALIDATE ends with a good frame. -/
  | validated (hp : s.phase = .check) (hi : i.op = .validate)
      (hh : headerOk (underValidation i s) s.frame = true) (hc : checksumOk (underValidation i s) s.frame = true) :
      CoreStep i s (endOk
        { s with acc := frameSum (underValidation i s) s.frame, fvalid := true, fproto := underValidation i s })
  /-- R157: READ goes on with a good frame. -/
  | checked (hp : s.phase = .check) (hi : i.op = .read)
      (hh : headerOk (underValidation i s) s.frame = true) (hc : checksumOk (underValidation i s) s.frame = true) :
      CoreStep i s (goto .dec
        { s with acc := frameSum (underValidation i s) s.frame, fvalid := true, fproto := underValidation i s })
  /-- R181: the fields of FRAME go into the Reading. -/
  | decoded (hp : s.phase = .dec) (hi : i.op = .decode ∨ i.op = .read) : CoreStep i s (decStep s)
  /-- R186: the Reading gets its scores. -/
  | converted (hp : s.phase = .conv) (hi : i.op = .decode ∨ i.op = .read) : CoreStep i s (convStep s)
  /-- R214: RESULT gets its score. -/
  | scored {p : Pollutant} {d : Standard} (hp : s.phase = .aqi1) (hi : i.pairOperand = some (p, d)) :
      CoreStep i s (aqi1Step p d s)

theorem op_of_validatesUnder {i : Instr} {vp : ProtocolKind} {s : State} (h : validatesUnder i vp s) :
    i.op = .validate ∨ i.op = .read := by
  rcases h with ⟨rfl, -⟩ | ⟨rfl, -⟩ | ⟨rfl, -⟩
  · exact .inl rfl
  · exact .inl rfl
  · exact .inr rfl

theorem op_of_pairOperand {i : Instr} {q : Pollutant × Standard} (h : i.pairOperand = some q) : i.op = .aqi := by
  cases i <;> trivial

theorem coreStep_scan {i : Instr} {s : State} (hp : s.phase = .scan) (hi : i = .sync ∨ i = .read) :
    CoreStep i s (scanStep i.op s) := by
  have ho : i.op = .sync ∨ i.op = .read := hi.imp (congrArg Instr.op) (congrArg Instr.op)
  rcases scanStep_cases i.op s with ⟨hd, e⟩ | ⟨hd, hq, e⟩ | ⟨b, p, hd, hb, hm, e⟩ | ⟨b, hd, hb, hm, e⟩
  · exact e ▸ .noStartByte hp ho hd
  · exact e ▸ .starved hp ho hd hq
  · rcases ho with ho | ho
    · rw [e, if_pos ho]
      exact .synced hp ho hd hb hm
    · rw [e, if_neg (by simp [ho])]
      exact .marked hp ho hd hb hm
  · exact e ▸ .discarded hp ho hd hb hm

theorem coreStep_check {i : Instr} {s : State} (hp : s.phase = .check) (ho : i.op = .validate ∨ i.op = .read) :
    CoreStep i s (checkStep i.op (underValidation i s) s) := by
  rcases checkStep_cases i.op (underValidation i s) s with ⟨hh, e⟩ | ⟨hh, hc, e⟩ | ⟨hh, hc, e⟩
  · exact e ▸ .badHeader hp ho hh
  · exact e ▸ .badChecksum hp ho hh hc
  · rcases ho with ho | ho
    · rw [e, if_pos ho]
      exact .validated hp ho hh hc
    · rw [e, if_neg (by simp [ho])]
      exact .checked hp ho hh hc

/-- Whatever `exec` answers for a busy core is one of the outcomes. -/
theorem coreStep_of_exec {i : Instr} {s t : State} (hp : s.phase ≠ .idle) (h : exec i s = .next t) :
    CoreStep i s t := by
  rcases exec_busy_cases hp h with ⟨hq, hi, rfl⟩ | ⟨hq, hv, rfl⟩ | ⟨hq, hv, hl, rfl | ⟨k, hk, rfl⟩⟩ | ⟨hq, hv, rfl⟩ |
    ⟨hq, hi, rfl⟩ | ⟨hq, hi, rfl⟩ | ⟨hq, p, d, hi, rfl⟩
  · exact coreStep_scan hq hi
  · rcases availStep_cases (underValidation i s) s with ⟨hl, e⟩ | ⟨hl, e⟩
    · exact e ▸ .available hq (op_of_validatesUnder hv) hl
    · exact e ▸ .incomplete hq (op_of_validatesUnder hv) hl
  · exact .transferred hq (op_of_validatesUnder hv) hl
  · exact .shortRead hq (op_of_validatesUnder hv) hl hk
  · exact coreStep_check hq (op_of_validatesUnder hv)
  · exact .decoded hq (hi.imp (congrArg Instr.op) (congrArg Instr.op))
  · exact .converted hq (hi.imp (congrArg Instr.op) (congrArg Instr.op))
  · exact .scored hq hi

/-! ### What the issue of a command can do -/

/-- What an issue writes (60_exceptions.md R285): the word is latched, valid flags only fall, and
the core is busy exactly when DONE is 0. -/
theorem issued_writes (i : Instr) (s : State) :
    ∃ p d e pv n fv rv,
      issued i s = { s with cmdl := encodeWord i, phase := p, done := d, err := e, pvalid := pv, dcnt := n
                            fvalid := fv, rvalid := rv }
        ∧ (p ≠ .idle ↔ d = false) ∧ (pv = s.pvalid ∨ pv = false) ∧ (fv = s.fvalid ∨ fv = false)
        ∧ (rv = s.rvalid ∨ rv = false) := by
  cases i
  case decode =>
    rcases issueDecode_cases s with ⟨-, e⟩ | ⟨-, e⟩ <;>
      exact ⟨_, _, _, _, _, _, _, e, by simp, .inl rfl, .inl rfl, .inr rfl⟩
  case sync => exact ⟨_, _, _, _, _, _, _, rfl, by simp, .inr rfl, .inl rfl, .inl rfl⟩
  case read => exact ⟨_, _, _, _, _, _, _, rfl, by simp, .inr rfl, .inr rfl, .inr rfl⟩
  case validateP => exact ⟨_, _, _, _, _, _, _, rfl, by simp, .inl rfl, .inr rfl, .inl rfl⟩
  case validateC => exact ⟨_, _, _, _, _, _, _, rfl, by simp, .inl rfl, .inr rfl, .inl rfl⟩
  all_goals exact ⟨_, _, _, _, _, _, _, rfl, by simp, .inl rfl, .inl rfl, .inl rfl⟩

/-! ### What a step of the machine can do, one constructor per kind of action -/

/-- The ways from a state to the next (00_scope.md R13). -/
inductive StepBy (s : State) : State → Prop
  /-- The core takes its enabled step (10_state.md R29). -/
  | core {i : Instr} {rest : List AgentAction} {t : State} (hp : s.phase ≠ .idle) (hc : decodeWord s.cmdl = .ok i)
      (ha : s.agenda = [] ∧ rest = [] ∨ s.agenda = .core :: rest)
      (ht : CoreStep i { s with agenda := rest } t) : StepBy s t
  /-- A legal word written to CMD (60_exceptions.md R285). -/
  | issue {i : Instr} {v : Word} {rest : List AgentAction} (hp : s.phase = .idle)
      (ha : s.agenda = .hostWrite 0x00 v :: rest) (hd : decodeWord (commandByte v) = .ok i) :
      StepBy s (issued i { s with agenda := rest })
  /-- An illegal word written to CMD (60_exceptions.md R268). -/
  | illegal {v : Word} {rest : List AgentAction} (hp : s.phase = .idle)
      (ha : s.agenda = .hostWrite 0x00 v :: rest) : StepBy s (raise .errIllegal { s with agenda := rest })
  /-- OPERAND written (10_state.md R38). -/
  | operand {v : Word} {rest : List AgentAction} (hp : s.phase = .idle)
      (ha : s.agenda = .hostWrite 0x02 v :: rest) : StepBy s { s with agenda := rest, operand := v }
  /-- An action that touches no register of the core and takes nothing from the byte source: an arrival at its
  tail, a draw, a host read, a write that is ignored, an idle core's turn. -/
  | outside {rest : List AgentAction} {q : List Byte} {d : Option Nat} {v : Word} {n : Nat}
      (ha : s.phase = .idle ∨ ∃ a, s.agenda = a :: rest ∧ a ≠ .core) (hr : ∀ rest, s.agenda ≠ .reset :: rest)
      (hq : s.source <+: q) :
      StepBy s { s with agenda := rest, source := q, readDraw := d, readData := v, drawCount := n }
  /-- The reset input (70_reset_and_hazards.md R300). -/
  | reset {rest : List AgentAction} (ha : s.agenda = .reset :: rest) : StepBy s (resetCore { s with agenda := rest })

/-- Every step that answers a next state is one of these. -/
theorem stepBy_of_step {s t : State} (h : step s = .next t) : StepBy s t := by
  rcases step_next_cases h with
    ⟨i, rest, he, ⟨hp, hc, ha⟩ | ⟨hp, v, ha, hd⟩⟩ | ⟨rest, rfl, ⟨hp, ha⟩ | ⟨idx, v, ha, -⟩⟩ | ⟨b, rest, ha, rfl⟩ |
    ⟨k, rest, ha, rfl⟩ | ⟨v, rest, ha, hp, rfl⟩ | ⟨v, rest, ha, hp, rfl⟩ | ⟨idx, rest, v, n, ha, rfl⟩ | ⟨rest, ha, rfl⟩
  · exact .core hp hc ha (coreStep_of_exec hp he)
  · have hi : exec i { s with agenda := rest } = .next (issued i { s with agenda := rest }) := exec_idle hp
    obtain rfl := Host.Outcome.next.inj (hi.symm.trans he)
    exact .issue hp ha hd
  · exact .outside (.inl hp) (by rcases ha with ⟨e, -⟩ | e <;> simp [e]) ⟨[], List.append_nil _⟩
  · exact .outside (.inr ⟨_, ha, nofun⟩) (by simp [ha]) ⟨[], List.append_nil _⟩
  · exact .outside (.inr ⟨_, ha, nofun⟩) (by simp [ha]) ⟨[b], rfl⟩
  · exact .outside (.inr ⟨_, ha, nofun⟩) (by simp [ha]) ⟨[], List.append_nil _⟩
  · exact .illegal hp ha
  · exact .operand hp ha
  · exact .outside (.inr ⟨_, ha, nofun⟩) (by simp [ha]) ⟨[], List.append_nil _⟩
  · exact .reset ha

/-! ### Every step keeps the invariant -/

/-- The part of the invariant that does not speak of a command in progress, of FRAME, DCNT, the Reading and RESULT. -/
structure DataInv (frame : Memory) (dcnt : BitVec 6) (reading : Reading) (result : Word) : Prop where
  frame_canonical : Memory.wf frame = true
  dcnt_bounded : dcnt.toNat ≤ 32
  reading_scored : reading.scored = true
  result_scored : isScore result = true

theorem Inv.data {s : State} (h : Inv s) : DataInv s.frame s.dcnt s.reading s.result :=
  ⟨h.frame_canonical, h.dcnt_bounded, h.reading_scored, h.result_scored⟩

/-- Taking an exception leaves an idle core with a code that is produced. -/
theorem inv_raise {e : ErrorCause} {s : State} (h : DataInv s.frame s.dcnt s.reading s.result) : Inv (raise e s) :=
  inv_of_idle h.frame_canonical h.dcnt_bounded (by cases e <;> rfl) rfl h.reading_scored h.result_scored

theorem inv_endOk {s : State} (h : DataInv s.frame s.dcnt s.reading s.result) : Inv (endOk s) :=
  inv_of_idle h.frame_canonical h.dcnt_bounded rfl rfl h.reading_scored h.result_scored

/-- `inv_of_busy` with the data part in one piece. -/
theorem inv_busy {t : State} {i : Instr} (h : DataInv t.frame t.dcnt t.reading t.result)
    (hc : decodeWord t.cmdl = .ok i) (hw : inFlow i t.phase = true) (hdone : t.done = false ∧ t.err = 0)
    (hx : t.phase = .xfer → frameLength (underValidation i t) ≤ t.source.length)
    (hv : t.phase = .dec ∨ t.phase = .conv → t.fvalid = true)
    (hg : (t.phase = .scan → t.pvalid = false)
      ∧ (i.op = .validate ∨ i.op = .read → t.phase ≠ .dec → t.phase ≠ .conv → t.fvalid = false)
      ∧ (i.op = .decode ∨ i.op = .read → t.rvalid = false)) : Inv t :=
  inv_of_busy hc hw h.frame_canonical h.dcnt_bounded hdone.1 hdone.2 h.reading_scored h.result_scored hx hv hg

/-- What an XFER step leaves in FRAME is canonical. -/
theorem wf_frameOf {m : Memory} {vp : ProtocolKind} {q : List Byte} (hl : frameLength vp ≤ q.length)
    (h : Memory.wf m = true) : Memory.wf (frameOf m (frameLength vp) q) = true :=
  wf_loadFrame (by simp [hl]) (frameLength_le vp) h

/-- A discarded byte keeps DCNT at most 32 (R136). -/
theorem dcnt_succ_bounded {n : BitVec 6} (h : n.toNat ≤ 32) (hn : n ≠ 32) : (n + 1).toNat ≤ 32 := by
  have : n.toNat ≠ 32 := fun e => hn (BitVec.eq_of_toNat_eq e)
  rw [BitVec.toNat_add_of_lt] <;> simp <;> omega

/-- DEC leaves the AQI registers. -/
theorem decStep_scored (s : State) : (decStep s).reading.scored = s.reading.scored := by
  unfold decStep
  cases s.fproto <;> rfl

/-- Every step of the core keeps the invariant. -/
theorem inv_coreStep {i : Instr} {s t : State} (h : Inv s) (hb : s.phase ≠ .idle) (hc : decodeWord s.cmdl = .ok i)
    (ht : CoreStep i s t) : Inv t := by
  have data := h.data
  have running := h.busy_not_done hb
  obtain ⟨scanning, validating, reading⟩ := h.pending_flags_clear hb i hc
  cases ht with
  | noStartByte | starved | incomplete | shortRead | badHeader | badChecksum => exact inv_raise data
  | synced | validated => exact inv_endOk data
  | marked hp hi =>
    exact inv_busy data hc (by simp [inFlow, hi]) running nofun nofun
      ⟨nofun, fun ho _ _ => validating ho (by simp [hp]) (by simp [hp]), reading⟩
  | discarded hp hi hd =>
    refine inv_busy { data with dcnt_bounded := dcnt_succ_bounded data.dcnt_bounded hd } hc ?_ running ?_ ?_
      ⟨scanning, validating, reading⟩
    · rcases hi with hi | hi <;> simp [inFlow, hi, hp]
    · simp [hp]
    · simp [hp]
  | available hp hi hl =>
    exact inv_busy data hc (by rcases hi with hi | hi <;> simp [inFlow, hi]) running (fun _ => hl) nofun
      ⟨nofun, fun ho _ _ => validating ho (by simp [hp]) (by simp [hp]), reading⟩
  | transferred hp hi hl =>
    exact inv_busy { data with frame_canonical := wf_frameOf hl data.frame_canonical } hc
      (by rcases hi with hi | hi <;> simp [inFlow, hi]) running nofun nofun
      ⟨nofun, fun ho _ _ => validating ho (by simp [hp]) (by simp [hp]), reading⟩
  | checked hp hi =>
    exact inv_busy data hc (by simp [inFlow, hi]) running nofun (fun _ => rfl)
      ⟨nofun, fun _ hn _ => absurd rfl hn, reading⟩
  | decoded hp hi =>
    have valid := h.decoding_validated (.inl hp)
    have scored := (decStep_scored s).trans data.reading_scored
    rw [decStep_eq] at scored ⊢
    exact inv_busy { data with reading_scored := scored } hc (by rcases hi with hi | hi <;> simp [inFlow, hi]) running
      nofun (fun _ => valid) ⟨nofun, fun _ _ hn => absurd rfl hn, reading⟩
  | converted => exact inv_endOk { data with reading_scored := scored_convert _ }
  | scored => exact inv_endOk { data with result_scored := isScore_aqiScore _ _ _ }

/-- The issue of a command keeps the invariant. -/
theorem inv_issued {s : State} (h : Inv s) (i : Instr) : Inv (issued i s) := by
  have data := h.data
  have cleared : DataInv s.frame 0 s.reading s.result := { data with dcnt_bounded := by decide }
  have latched := decodeWord_encodeWord i
  cases i with
  | decode =>
    rw [issued]
    rcases issueDecode_cases s with ⟨hv, e⟩ | ⟨-, e⟩ <;> rw [e]
    · exact inv_busy data latched rfl ⟨rfl, rfl⟩ nofun (fun _ => hv) ⟨nofun, by simp [Instr.op], fun _ => rfl⟩
    · exact inv_raise data
  | sync => exact inv_busy cleared latched rfl ⟨rfl, rfl⟩ nofun nofun ⟨fun _ => rfl, nofun, nofun⟩
  | read => exact inv_busy cleared latched rfl ⟨rfl, rfl⟩ nofun nofun ⟨fun _ => rfl, fun _ _ _ => rfl, fun _ => rfl⟩
  | validateP | validateC =>
    exact inv_busy data latched rfl ⟨rfl, rfl⟩ nofun nofun ⟨nofun, fun _ _ _ => rfl, nofun⟩
  | aqiPm25Us | aqiPm10Us | aqiPm25Cn | aqiPm10Cn =>
    exact inv_busy data latched rfl ⟨rfl, rfl⟩ nofun nofun ⟨nofun, nofun, nofun⟩

/-- The invariant reads none of the other agents' fields but the byte source, which may only grow, and not OPERAND. -/
theorem inv_outside {s : State} (h : Inv s) {q : List Byte} (hq : s.source.length ≤ q.length) {rest : List AgentAction}
    {d : Option Nat} {v w : Word} {n : Nat} :
    Inv { s with operand := w, agenda := rest, source := q, readDraw := d, readData := v, drawCount := n } :=
  { h with bytes_available := fun hp i hc => (h.bytes_available hp i hc).trans hq }

theorem inv_agenda {s : State} (h : Inv s) {rest : List AgentAction} : Inv { s with agenda := rest } :=
  inv_outside h le_rfl

theorem inv_resetCore (s : State) : Inv (resetCore s) :=
  inv_of_idle rfl (Nat.zero_le _) rfl rfl rfl rfl

/-- Settles O49: by the kind of action, and for the core's own by the outcome of its step. -/
theorem everyStepKeepsTheInvariant : Obligations.EveryStepKeepsTheInvariant := by
  intro s t h hst
  cases stepBy_of_step hst with
  | @core i rest _ hp hc _ ht => exact inv_coreStep (inv_agenda h (rest := rest)) hp hc ht
  | issue => exact inv_issued (inv_agenda h) _
  | illegal => exact inv_raise h.data
  | operand => exact inv_outside h le_rfl
  | outside _ _ hq => exact inv_outside h hq.length_le
  | reset => exact inv_resetCore _

/-! ### No step stops -/

/-- A busy core of the invariant has a next state: its command is at a phase of its flow, and a read-exact finds its
bytes. -/
theorem exec_busy_answers {i : Instr} {s : State} (h : Inv s) (hp : s.phase ≠ .idle)
    (hc : decodeWord s.cmdl = .ok i) : ∃ t, exec i s = .next t := by
  obtain ⟨j, hj, hw⟩ := h.busy_in_flow hp
  obtain rfl : j = i := Except.ok.inj (hj.symm.trans hc)
  rcases exec_in_flow hw with ⟨-, -, e⟩ | ⟨-, -, e⟩ | ⟨hq, -, e⟩ | ⟨-, -, e⟩ | ⟨-, -, e⟩ | ⟨-, -, e⟩ | ⟨-, _, _, -, e⟩
  case inr.inr.inl =>
    rcases xferStep_cases _ s (h.bytes_available hq j hc) with f | ⟨_, -, -, -, f⟩ <;> exact ⟨_, e.trans f⟩
  all_goals exact ⟨_, e⟩

/-- The turn has a next state. -/
def Turn.Answers : Turn → Prop
  | .runs i s => ∃ t, exec i s = .next t
  | .moves _ => True
  | .faults _ => False
  | .refuses _ => False

theorem step_of_answers {s : State} (h : (nextTurn s).Answers) : ∃ t, step s = .next t := by
  cases hn : nextTurn s with
  | runs i u =>
    rw [hn] at h
    rw [step_runs hn]
    exact h
  | moves u => exact ⟨u, step_moves hn⟩
  | faults r => simp [hn, Turn.Answers] at h
  | refuses r => simp [hn, Turn.Answers] at h

theorem coreTurn_answers {s : State} (h : Inv s) : (coreTurn s).Answers := by
  rcases coreTurn_cases s with ⟨-, e⟩ | ⟨i, hp, hc, e⟩ | ⟨r, hp, hc, -⟩
  · rw [e]
    trivial
  · rw [e]
    exact exec_busy_answers h hp hc
  · obtain ⟨i, hi, -⟩ := h.busy_in_flow hp
    simp [hi] at hc

theorem hostWrite_answers (idx : Byte) (v : Word) (s : State) : (hostWrite idx v s).Answers := by
  rcases hostWrite_cases idx v s with ⟨-, e⟩ | ⟨i, hp, -, -, e⟩ | ⟨r, -, -, -, e⟩ | ⟨-, -, e⟩ | ⟨-, -, -, e⟩ <;> rw [e]
  case inr.inl => exact ⟨_, exec_idle hp⟩
  all_goals trivial

theorem takeAction_answers {a : AgentAction} {s : State} (h : Inv s) (ha : a ≠ .foreignPop) :
    (takeAction a s).Answers := by
  cases a with
  | core => exact coreTurn_answers h
  | hostWrite idx v => exact hostWrite_answers idx v s
  | foreignPop => exact absurd rfl ha
  | arrive | failRead | hostRead | reset => trivial

/-- Settles O51: whoever's turn it is, the turn has a next state. -/
theorem noStepStops : Obligations.NoStepStops := by
  intro s h hne
  refine step_of_answers ?_
  cases ha : s.agenda with
  | nil =>
    rw [nextTurn_nil ha]
    exact coreTurn_answers h
  | cons a rest =>
    rw [nextTurn_cons ha]
    exact takeAction_answers (inv_agenda h) fun e => hne rest (e ▸ ha)

/-! ### PHASE, BUSY and DONE -/

/-- Every outcome of a step of the core is along an arrow of R29's list. -/
theorem CoreStep.advances {i : Instr} {s t : State} (h : CoreStep i s t) :
    phaseAdvance i.op s.phase t.phase = true := by
  cases h with
  | synced hp hi | marked hp hi | validated hp hi | checked hp hi => simp [phaseAdvance, hp, hi]
  | scored hp hi => simp [phaseAdvance, hp, op_of_pairOperand hi, aqi1Step]
  | decoded hp hi => rcases hi with hi | hi <;> simp [phaseAdvance, hp, hi, decStep_eq]
  | converted hp hi => rcases hi with hi | hi <;> simp [phaseAdvance, hp, hi, convStep]
  | noStartByte hp hi | starved hp hi | discarded hp hi | available hp hi | incomplete hp hi | transferred hp hi
  | shortRead hp hi | badHeader hp hi | badChecksum hp hi =>
    rcases hi with hi | hi <;> simp [phaseAdvance, hp, hi]

/-- A step of the core ends the command and sets DONE, or leaves the core busy and DONE as it is (R33). -/
theorem CoreStep.done {i : Instr} {s t : State} (h : CoreStep i s t) :
    t.phase = .idle ∧ t.done = true ∨ t.phase ≠ .idle ∧ t.done = s.done := by
  cases h with
  | noStartByte | starved | incomplete | shortRead | badHeader | badChecksum | synced | validated | converted | scored =>
    exact .inl ⟨rfl, rfl⟩
  | marked | available | transferred | checked => exact .inr ⟨nofun, rfl⟩
  | discarded hp => exact .inr ⟨by simp [hp], rfl⟩
  | decoded => exact .inr (by simp [decStep_eq])

/-- Settles O52: the core's own steps by their outcomes; every other action of a busy machine is outside the core, or
reset. -/
theorem phaseAdvancesOnlyAsListed : Obligations.PhaseAdvancesOnlyAsListed := by
  intro s t _ hb hst
  cases stepBy_of_step hst with
  | core _ hc ha ht =>
    have turn : ∀ a r, s.agenda = a :: r → a = .core := by
      intro a r e
      rcases ha with ⟨ha, -⟩ | ha <;> rw [ha] at e <;> cases e
      rfl
    exact ⟨fun _ => ⟨_, hc, ht.advances⟩, fun a r e hn _ => absurd (turn a r e) hn, fun r e => nomatch turn _ r e⟩
  | issue hp => exact absurd hp hb
  | illegal hp => exact absurd hp hb
  | operand hp => exact absurd hp hb
  | outside ha hr =>
    refine ⟨fun hcore => ?_, fun _ _ _ _ _ => rfl, fun r e => absurd e (hr r)⟩
    obtain ⟨a, e, hn⟩ := ha.resolve_left hb
    simp [e, hn] at hcore
  | reset ha =>
    refine ⟨fun hcore => ?_, fun a r e _ hn => ?_, fun _ _ => rfl⟩
    · simp [ha] at hcore
    · rw [ha] at e
      cases e
      exact absurd rfl hn

/-- The value a host writes to CMD carries its low byte (R36). -/
@[simp] theorem commandByte_setWidth (w : Byte) : commandByte (w.setWidth 32) = w :=
  BitVec.setWidth_setWidth_of_le w (by decide)

/-- A legal word written to CMD of an idle core runs its command (60_exceptions.md R285). -/
theorem step_write_legal {s : State} {v : Word} {i : Instr} {rest : List AgentAction} (hp : s.phase = .idle)
    (ha : s.agenda = .hostWrite 0x00 v :: rest) (hd : decodeWord (commandByte v) = .ok i) :
    step s = exec i { s with agenda := rest } := by
  refine step_runs ?_
  simp [nextTurn_cons ha, takeAction, hostWrite, busy, hp, hd]

/-- Any other word ends at once (60_exceptions.md R268). -/
theorem step_write_illegal {s : State} {v : Word} {r : Reject} {rest : List AgentAction} (hp : s.phase = .idle)
    (ha : s.agenda = .hostWrite 0x00 v :: rest) (hd : decodeWord (commandByte v) = .error r) :
    step s = .next (raise .errIllegal { s with agenda := rest }) := by
  refine step_moves ?_
  simp [nextTurn_cons ha, takeAction, hostWrite, busy, hp, hd]

/-- An issue leaves the core busy exactly when it leaves DONE = 0 (60_exceptions.md R285). -/
theorem issued_busy_iff (i : Instr) (s : State) : (issued i s).phase ≠ .idle ↔ (issued i s).done = false := by
  obtain ⟨_, _, _, _, _, _, _, e, hpd, -⟩ := issued_writes i s
  rw [e]
  exact hpd

/-- Settles O57: an issue and an illegal word set one of the two; the core's steps clear BUSY only with DONE. -/
theorem exactlyOneOfBusyAndDone : Obligations.ExactlyOneOfBusyAndDone := by
  constructor
  · intro s t w rest hp ha hst
    cases hd : decodeWord w with
    | ok i =>
      rw [step_write_legal hp ha (by rwa [commandByte_setWidth]), exec_idle (by exact hp)] at hst
      exact Host.Outcome.next.inj hst ▸ issued_busy_iff i _
    | error r =>
      rw [step_write_illegal hp ha (by rwa [commandByte_setWidth])] at hst
      exact Host.Outcome.next.inj hst ▸ by simp
  · intro s t _ hone hne hst
    cases stepBy_of_step hst with
    | core hp _ _ ht =>
      rcases ht.done with ⟨h1, h2⟩ | ⟨h1, h2⟩
      · simp [h1, h2]
      · exact iff_of_true h1 (h2.trans (hone.1 hp))
    | issue => exact issued_busy_iff _ _
    | illegal => simp
    | operand => exact hone
    | outside => exact hone
    | reset ha => exact absurd ha (hne _)

/-! ### Who writes what -/

/-- Which data registers a step of the core can change, by its phase (R21, R39, R43, R48). -/
theorem CoreStep.writers {i : Instr} {s t : State} (h : CoreStep i s t) :
    (t.reading ≠ s.reading → s.phase = .dec ∨ s.phase = .conv) ∧ (t.result ≠ s.result → s.phase = .aqi1)
      ∧ (t.frame ≠ s.frame → s.phase = .xfer) ∧ (t.acc ≠ s.acc → s.phase = .check) ∧ t.operand = s.operand := by
  cases h with
  | decoded hp => simp [hp, decStep_eq]
  | converted hp => simp [hp, convStep]
  | scored hp => simp [hp, aqi1Step]
  | transferred hp | badChecksum hp | validated hp | checked hp => simp [hp]
  | noStartByte | starved | synced | marked | discarded | available | incomplete | shortRead | badHeader => simp

/-- Settles O54: the core's step by its outcomes; an issue and the other agents write none of these registers, but for
the host's write to OPERAND. -/
theorem eachRegisterHasItsWriter : Obligations.EachRegisterHasItsWriter := by
  intro s t hst hne
  cases stepBy_of_step hst with
  | core _ _ _ ht =>
    obtain ⟨hreading, hresult, hframe, hacc, hoperand⟩ := ht.writers
    exact ⟨hreading, hresult, hframe, hacc, absurd hoperand⟩
  | @issue i _ rest =>
    obtain ⟨_, _, _, _, _, _, _, e, -⟩ := issued_writes i { s with agenda := rest }
    simp [e]
  | illegal => simp
  | operand hp ha => exact ⟨absurd rfl, absurd rfl, absurd rfl, absurd rfl, fun _ => ⟨hp, _, _, ha, rfl⟩⟩
  | outside => simp
  | reset ha => exact absurd ha (hne _)

/-- Which flags a step of the core can change, by its phase; the valid flags only rise in it (R27, R31, R32, R34). -/
theorem CoreStep.flags {i : Instr} {s t : State} (h : CoreStep i s t) :
    (t.proto ≠ s.proto → s.phase = .scan ∧ t.pvalid = true) ∧ (t.pvalid ≠ s.pvalid → s.phase = .scan ∧ t.pvalid = true)
      ∧ (t.fproto ≠ s.fproto → s.phase = .check ∧ t.fvalid = true)
      ∧ (t.fvalid ≠ s.fvalid → s.phase = .check ∧ t.fvalid = true)
      ∧ (t.rvalid ≠ s.rvalid → s.phase = .conv ∧ t.rvalid = true) ∧ (t.hasCounts ≠ s.hasCounts → s.phase = .dec) := by
  cases h with
  | decoded hp => simp [hp, decStep_eq]
  | converted hp => simp [hp, convStep]
  | scored => simp [aqi1Step]
  | synced hp | marked hp | validated hp | checked hp => simp [hp]
  | noStartByte | starved | discarded | available | incomplete | transferred | shortRead | badHeader | badChecksum =>
    simp

/-- Settles O55: flags rise by the core's steps and fall by an idle core's issue; nothing else writes them. -/
theorem flagsChangeOnlyWhereStated : Obligations.FlagsChangeOnlyWhereStated := by
  intro s t hst hne
  cases stepBy_of_step hst with
  | core _ _ _ ht =>
    obtain ⟨hproto, hpvalid, hfproto, hfvalid, hrvalid, hcounts⟩ := ht.flags
    exact ⟨hproto, fun h => .inl (hpvalid h), hfproto, fun h => .inl (hfvalid h), fun h => .inl (hrvalid h), hcounts⟩
  | @issue i _ rest hp =>
    obtain ⟨_, _, _, _, _, _, _, e, -, hpvalid, hfvalid, hrvalid⟩ := issued_writes i { s with agenda := rest }
    rw [e]
    exact ⟨absurd rfl, fun h => .inr ⟨hp, hpvalid.resolve_left h⟩, absurd rfl,
      fun h => .inr ⟨hp, hfvalid.resolve_left h⟩, fun h => .inr ⟨hp, hrvalid.resolve_left h⟩, absurd rfl⟩
  | illegal => simp
  | operand => simp
  | outside => simp
  | reset ha => exact absurd ha (hne _)

/-! ### R27's remark -/

/-- A VALIDATE.C about to pass while the Reading of an older PlantowerPM frame is still valid: FRAME starts with
`HDR_C`, and its bytes sum to 256. -/
def olderReading : State :=
  { State.reset with
    phase := .check, cmdl := 0x0A, rvalid := true, hasCounts := true
    frame := [(0, 0x16), (1, 0x11), (2, 0x0B), (3, 0xCE)] }

theorem inv_olderReading : Inv olderReading :=
  inv_of_busy (i := .validateC) rfl rfl rfl (Nat.zero_le _) rfl rfl rfl rfl nofun nofun ⟨nofun, fun _ _ _ => rfl, nofun⟩

/-- Its CHECK step passes: FPROTO becomes CubicPM1006, RVALID and HAS_COUNTS stay. -/
theorem step_olderReading :
    step olderReading = .next (endOk { olderReading with acc := 0, fvalid := true, fproto := .cubicPM1006 }) := by
  rfl

/-- Refutes O58: the CHECK step of `olderReading` changes FPROTO under a valid Reading. -/
theorem not_hasCountsFollowsFprotoWhileRvalid : ¬ Obligations.HasCountsFollowsFprotoWhileRvalid := by
  intro h
  have counts := h olderReading _ inv_olderReading (by decide) step_olderReading rfl
  exact absurd (counts.1 rfl) (by decide)

/-! ### One step, by whose turn it is -/

/-- An idle core's turn only takes the action off the agenda. -/
theorem step_core_idle {s : State} {rest : List AgentAction} (hp : s.phase = .idle) (ha : s.agenda = .core :: rest) :
    step s = .next { s with agenda := rest } := by
  refine step_moves ?_
  simp [nextTurn_cons ha, takeAction, coreTurn, busy, hp]

/-- A busy core's turn runs the command CMDL holds. -/
theorem step_core_busy {s : State} {i : Instr} {rest : List AgentAction} (hp : s.phase ≠ .idle)
    (ha : s.agenda = .core :: rest) (hc : decodeWord s.cmdl = .ok i) : step s = exec i { s with agenda := rest } := by
  refine step_runs ?_
  simp [nextTurn_cons ha, takeAction, coreTurn, busy, hp, hc]

/-- Settles O4: one lemma per way of getting the turn. -/
theorem stepRunsTheCommand : Obligations.StepRunsTheCommand := by
  refine ⟨fun s w i rest hp ha hd => ?_, fun s i hp ha hc => ?_, fun s i rest hp ha hc => ?_, fun s hp ha => ?_,
    fun s rest hp ha => ?_⟩
  · exact step_write_legal hp ha (by rwa [commandByte_setWidth])
  · exact step_busy hp ha hc
  · exact step_core_busy hp ha hc
  · exact step_idle hp ha
  · exact step_core_idle hp ha

/-- Settles O8: of the five cases of a host write, the two that an idle core and an index other than CMD leave. -/
theorem idleWritesReachOnlyOperand : Obligations.IdleWritesReachOnlyOperand := by
  intro s idx v rest hp ha h0
  refine step_moves ((nextTurn_cons ha).trans ?_)
  rcases hostWrite_cases idx v { s with agenda := rest } with
    ⟨hb, -⟩ | ⟨_, -, h, -⟩ | ⟨_, -, h, -⟩ | ⟨-, h2, e⟩ | ⟨-, -, h2, e⟩
  · exact absurd hp hb
  · exact absurd h h0
  · exact absurd h h0
  · rw [if_pos h2]
    exact e
  · rw [if_neg h2]
    exact e

/-! ### The register map (10_state.md R35) -/

theorem hostRead_idle {s : State} {idx : Byte} (hp : s.phase = .idle) :
    hostRead idx s = { s with readData := registerFile s idx } := by
  simp [hostRead, busy_eq_false.2 hp]

/-- A host that reads an idle core gets the register. -/
theorem step_read_idle {s : State} {idx : Byte} {rest : List AgentAction} (hp : s.phase = .idle)
    (ha : s.agenda = .hostRead idx :: rest) :
    step s = .next { s with agenda := rest, readData := registerFile s idx } := by
  refine step_moves ((nextTurn_cons ha).trans ?_)
  exact congrArg Turn.moves (hostRead_idle hp)

theorem registerFile_frame {s : State} {idx : Byte} (h : 0x40 ≤ idx.toNat ∧ idx.toNat ≤ 0x5F) :
    registerFile s idx = (Memory.read s.frame (idx.toNat - 0x40)).setWidth 32 := by
  obtain ⟨hl, hh⟩ := h
  simp only [registerFile]
  repeat rw [if_neg (by omega)]
  rw [if_pos ⟨hl, hh⟩]

theorem registerFile_reserved {s : State} {idx : Byte}
    (h : (0x06 ≤ idx.toNat ∧ idx.toNat ≤ 0x0F) ∨ (0x23 ≤ idx.toNat ∧ idx.toNat ≤ 0x3F) ∨ 0x60 ≤ idx.toNat) :
    registerFile s idx = 0 := by
  simp only [registerFile]
  repeat rw [if_neg (by omega)]

/-- Settles O9: the value read is the register file's; its single indices by evaluation, its two ranges by lemma. -/
theorem idleReadsReturnTheRegisterMap : Obligations.IdleReadsReturnTheRegisterMap := by
  intro s idx rest hp ha
  refine ⟨registerFile s idx, step_read_idle hp ha, ?_, ?_, ?_, ?_, ?_, ?_, ?_, ?_, ?_, ?_, ?_, ?_, ?_, ?_, ?_, ?_, ?_,
    ?_, ?_, ?_, ?_, ?_, ?_, ?_, ?_, registerFile_frame, registerFile_reserved⟩
  all_goals
    rintro rfl
    rfl

/-! ### STATUS (10_state.md R37) -/

theorem ofBool_eq_ite (b : Bool) : BitVec.ofBool b = if b then 1 else 0 := by cases b <;> rfl

theorem protocolCode_eq_ite (p : ProtocolKind) : protocolCode p = if p = .plantowerPM then 0 else 1 := by
  cases p <;> rfl

theorem busy_eq_ite (s : State) : BitVec.ofBool (busy s) = if s.phase = .idle then 0 else 1 := by
  by_cases h : s.phase = .idle
  · rw [busy_eq_false.2 h, if_pos h]
    rfl
  · rw [busy_eq_true.2 h, if_neg h]
    rfl

/-- Ten fields laid end to end with STATUS's widths are found again at STATUS's positions. -/
theorem extract_fields (z : BitVec 4) (hc rv fp fv pr pv : BitVec 1) (e : BitVec 4) (d b : BitVec 1) :
    let w := z ++ hc ++ rv ++ fp ++ fv ++ pr ++ pv ++ e ++ d ++ b
    w.extractLsb' 0 1 = b ∧ w.extractLsb' 1 1 = d ∧ w.extractLsb' 2 4 = e ∧ w.extractLsb' 6 1 = pv
      ∧ w.extractLsb' 7 1 = pr ∧ w.extractLsb' 8 1 = fv ∧ w.extractLsb' 9 1 = fp ∧ w.extractLsb' 10 1 = rv
      ∧ w.extractLsb' 11 1 = hc ∧ w.extractLsb' 12 4 = z := by
  simp (disch := decide) only [BitVec.extractLsb'_append_eq_of_le, BitVec.extractLsb'_append_eq_of_add_le,
    BitVec.extractLsb'_eq_self, Nat.reduceSub, and_self]

/-- Settles O11: each field is found at its position, and each flag is its bit. -/
theorem statusFields : Obligations.StatusFields := by
  intro s
  simp only [← ofBool_eq_ite, ← protocolCode_eq_ite, ← busy_eq_ite]
  exact extract_fields _ _ _ _ _ _ _ _ _ _

/-! ### Where a meaning stops -/

theorem execSync_outside {s : State} (hp : s.phase ≠ .idle) (h : s.phase ≠ .scan) :
    execSync s = .fault .phaseOutsideCommand := by
  unfold execSync
  split <;> trivial

theorem validateFlow_outside {i : Instr} {s : State} (hp : s.phase ≠ .idle) (ha : s.phase ≠ .avail)
    (hx : s.phase ≠ .xfer) (hc : s.phase ≠ .check) : validateFlow i s = .fault .phaseOutsideCommand := by
  unfold validateFlow
  split <;> trivial

theorem execDecode_outside {s : State} (hp : s.phase ≠ .idle) (hd : s.phase ≠ .dec) (hc : s.phase ≠ .conv) :
    execDecode s = .fault .phaseOutsideCommand := by
  unfold execDecode
  split <;> trivial

theorem aqiFlow_outside {i : Instr} {p : Pollutant} {d : Standard} {s : State} (hp : s.phase ≠ .idle)
    (ha : s.phase ≠ .aqi1) : aqiFlow i p d s = .fault .phaseOutsideCommand := by
  unfold aqiFlow
  split <;> trivial

/-- The flow of READ leaves out one busy phase only. -/
theorem execRead_aqi1 {s : State} (ha : s.phase = .aqi1) : execRead s = .fault .phaseOutsideCommand := by
  simp [execRead, ha]

/-- At a busy phase that is not in a command's flow, its meaning is the fault (10_state.md R29). -/
theorem exec_outside_flow {i : Instr} {s : State} (hp : s.phase ≠ .idle) (h : inFlow i s.phase = false) :
    exec i s = .fault .phaseOutsideCommand := by
  have other : ∀ p, inFlow i p = true → s.phase ≠ p := fun p hw e => by simp [e, hw] at h
  cases i with
  | sync => exact execSync_outside hp (other _ rfl)
  | validateP | validateC => exact validateFlow_outside hp (other _ rfl) (other _ rfl) (other _ rfl)
  | decode => exact execDecode_outside hp (other _ rfl) (other _ rfl)
  | aqiPm25Us | aqiPm10Us | aqiPm25Cn | aqiPm10Cn => exact aqiFlow_outside hp (other _ rfl)
  | read =>
    refine execRead_aqi1 ?_
    cases hq : s.phase
    case aqi1 => rfl
    case idle => exact absurd hq hp
    all_goals exact absurd hq (other _ rfl)

/-- Settles O29: flow by flow, and the guard of the XFER step. -/
theorem stopsOutsideTheFlow : Obligations.StopsOutsideTheFlow :=
  ⟨fun _ _ hp h => exec_outside_flow hp h, fun _ _ _ hp hv hl => (exec_xfer hv hp).trans (if_pos hl)⟩

end Sys2Proof.Machine
end

section
/-! PROOFS. The byte source (20_memory.md): its other actions, how a step may change it, the availability check, and runs
that come to a read-exact. -/

namespace Sys2Proof.Machine

/-! ### The command a host writes next -/

/-- The byte a host write to CMD carries when its value is given as a word of the fetch width (R35, R36). -/
theorem commandByte_ofNat (w : Byte) : commandByte (BitVec.ofNat 32 (w.toNat % 2 ^ 8)) = w := by
  rw [Nat.mod_eq_of_lt w.isLt, BitVec.ofNat_toNat, commandByte_setWidth]

/-- Settles O5: the word is the host's next action, and the byte written to CMD is the command's own word. -/
theorem fetchWordRunsNext : Obligations.FetchWordRunsNext := by
  intro s i
  have legal : decodeWord (commandByte (BitVec.ofNat 32 ((encodeWord i).toNat % 2 ^ 8))) = .ok i := by
    rw [commandByte_ofNat, decodeWord_encodeWord]
  exact step_write_legal (s := s.withFetchWord 8 (encodeWord i).toNat) rfl rfl legal

/-! ### What the transport and a second consumer do -/

/-- Settles O12: the action taken is the transport's, whatever the core is doing. -/
theorem arrivalAppendsAtTheTail : Obligations.ArrivalAppendsAtTheTail :=
  fun _ _ _ ha => step_moves (nextTurn_cons ha)

/-- Settles O13: the action taken is the transport's draw, whatever the core is doing. -/
theorem shortReadDrawOnlySetsTheDraw : Obligations.ShortReadDrawOnlySetsTheDraw :=
  fun _ _ _ ha => step_moves (nextTurn_cons ha)

/-- Settles O14: the turn such an action gets is the refusal. -/
theorem secondConsumerIsRefused : Obligations.SecondConsumerIsRefused := by
  intro s rest ha
  simp [step, nextTurn_cons ha, takeAction]

/-! ### The availability check -/

/-- Settles O20: a frame length is at most 32, and below the saturation point the port's answer is the length. -/
theorem availableCountMaySaturate : Obligations.AvailableCountMaySaturate := by
  intro w s i vp hw hp hv
  have saturated := srcAvailSaturated_ge hw (frameLength_le vp) s.source
  rw [exec_avail hv hp]
  rcases availStep_cases vp s with ⟨hl, e⟩ | ⟨hl, e⟩
  · rw [e, if_pos (saturated.2 hl)]
    rfl
  · rw [e, if_neg fun h => hl.not_ge (saturated.1 h)]
    rfl

/-! ### How a step changes the byte source -/

theorem markerOf_eq_none {b : Byte} : markerOf b = none ↔ b ≠ 0x42 ∧ b ≠ 0x16 := by
  rw [Option.eq_none_iff_forall_ne_some]
  constructor
  · intro h
    exact ⟨fun e => h .plantowerPM (markerOf_eq_some.2 (.inl ⟨e, rfl⟩)),
      fun e => h .cubicPM1006 (markerOf_eq_some.2 (.inr ⟨e, rfl⟩))⟩
  · intro ⟨not_p, not_c⟩ p h
    rcases markerOf_eq_some.1 h with ⟨e, -⟩ | ⟨e, -⟩
    · exact not_p e
    · exact not_c e

/-- A step of the core takes bytes only from the head: one that is no marker in SCAN, at most a frame's in XFER (R73). -/
theorem CoreStep.source {i : Instr} {s t : State} (h : CoreStep i s t) :
    t.source = s.source
      ∨ (s.phase = .scan ∧ ∃ b, s.source = b :: t.source ∧ b ≠ 0x42 ∧ b ≠ 0x16 ∧ t.dcnt = s.dcnt + 1)
      ∨ (s.phase = .xfer ∧ ∃ k ≤ 32, k ≤ s.source.length ∧ t.source = s.source.drop k) := by
  have fits := frameLength_le (underValidation i s)
  cases h with
  | discarded hp _ _ hb hm =>
    obtain ⟨not_p, not_c⟩ := markerOf_eq_none.1 hm
    exact .inr (.inl ⟨hp, _, srcPeek_eq_some.1 hb, not_p, not_c, rfl⟩)
  | transferred hp _ hl => exact .inr (.inr ⟨hp, _, fits, hl, rfl⟩)
  | shortRead hp _ hl hk => exact .inr (.inr ⟨hp, _, hk.le.trans fits, hk.le.trans hl, rfl⟩)
  | decoded => exact .inl (by simp [decStep_eq])
  | noStartByte | starved | synced | marked | available | incomplete | badHeader | badChecksum | validated | checked
  | converted | scored => exact .inl rfl

/-- An issue leaves the byte source (60_exceptions.md R285). -/
theorem issued_source (i : Instr) (s : State) : (issued i s).source = s.source := by
  obtain ⟨_, _, _, _, _, _, _, e, -⟩ := issued_writes i s
  rw [e]

/-- Settles O56: the core's own steps by their outcomes, an arrival at the tail, and no other action touches it. -/
theorem theByteSourceIsAQueue : Obligations.TheByteSourceIsAQueue := by
  intro s t h
  rcases step_next_cases h with
    ⟨i, rest, he, ⟨hp, -, -⟩ | ⟨hp, -⟩⟩ | ⟨_, rfl, -⟩ | ⟨b, rest, ha, rfl⟩ | ⟨_, _, -, rfl⟩ | ⟨_, _, -, -, rfl⟩ |
    ⟨_, _, -, -, rfl⟩ | ⟨_, _, _, _, -, rfl⟩ | ⟨_, -, rfl⟩
  · exact (coreStep_of_exec (s := { s with agenda := rest }) hp he).source.imp_right .inr
  · rw [exec_idle (by exact hp)] at he
    exact .inl (Host.Outcome.next.inj he ▸ issued_source i _)
  · exact .inl rfl
  · exact .inr (.inl ⟨b, rest, ha, rfl⟩)
  all_goals exact .inl rfl

/-! ### Runs that come to a read-exact -/

/-- The XFER step under a draw that is a short read (R71, R153): `k` bytes are lost, FRAME and ACC stay. -/
theorem xferStep_short {vp : ProtocolKind} {s : State} {k : Nat} (hk : s.readDraw = some k)
    (hf : Config.srcMayFail = true) (hlt : k < frameLength vp) (hl : frameLength vp ≤ s.source.length) :
    xferStep vp s = .next (raise .shortRead { s with source := s.source.drop k, readDraw := none }) := by
  rw [xferStep, if_neg (by omega), hk, srcReadExact_short hlt hf]

/-- The XFER step when no draw is pending, or one that is no short read (R71, R153): a whole frame is moved into FRAME. -/
theorem xferStep_answered {vp : ProtocolKind} {s : State}
    (h : ∀ k, s.readDraw = some k → ¬(Config.srcMayFail = true ∧ k < frameLength vp))
    (hl : frameLength vp ≤ s.source.length) :
    xferStep vp s = .next (goto .check
      { s with frame := frameOf s.frame (frameLength vp) s.source
               source := s.source.drop (frameLength vp), readDraw := none }) := by
  rcases xferStep_cases vp s hl with e | ⟨k, hk, hlt, hf, -⟩
  · exact e
  · exact absurd ⟨hf, hlt⟩ (h k hk)

section
variable {s : State} {i : Instr} {vp : ProtocolKind} {m : Nat}

/-- The AVAIL step of a busy core with a whole frame in the byte source, the core alone moving. -/
theorem step_avail (hp : s.phase = .avail) (ha : s.agenda = []) (hc : decodeWord s.cmdl = .ok i)
    (hv : validatesUnder i vp s) (hl : frameLength vp ≤ s.source.length) : step s = .next (goto .xfer s) := by
  rw [step_busy (by simp [hp]) ha hc, exec_avail hv hp, availStep, srcAvail, if_pos hl]

/-- The XFER step of a busy core, the core alone moving. -/
theorem step_xfer (hp : s.phase = .xfer) (ha : s.agenda = []) (hc : decodeWord s.cmdl = .ok i)
    (hv : validatesUnder i vp s) : step s = xferStep vp s := by
  rw [step_busy (by simp [hp]) ha hc, exec_xfer hv hp]

/-- From AVAIL a command that validates ends, under a draw that is a short read, with ShortRead (R165, R242). -/
theorem runSteps_avail_short {k : Nat} (hp : s.phase = .avail) (ha : s.agenda = []) (hc : decodeWord s.cmdl = .ok i)
    (hv : validatesUnder i vp s) (hl : frameLength vp ≤ s.source.length) (hk : s.readDraw = some k)
    (hf : Config.srcMayFail = true) (hlt : k < frameLength vp) :
    runSteps (m + 2) s =
      .next { s with err := 4, done := true, phase := .idle, source := s.source.drop k, readDraw := none } := by
  have xfer : step (goto .xfer s) = xferStep vp (goto .xfer s) := step_xfer rfl ha hc hv
  rw [runSteps_succ (step_avail hp ha hc hv hl), runSteps_succ (xfer.trans (xferStep_short hk hf hlt hl))]
  exact runSteps_idle rfl ha

/-- From AVAIL a command that validates comes, under any other draw or none, to CHECK with the frame in FRAME. -/
theorem runSteps_avail_answered (hp : s.phase = .avail) (ha : s.agenda = []) (hc : decodeWord s.cmdl = .ok i)
    (hv : validatesUnder i vp s) (hl : frameLength vp ≤ s.source.length)
    (h : ∀ k, s.readDraw = some k → ¬(Config.srcMayFail = true ∧ k < frameLength vp)) :
    runSteps (m + 2) s = runSteps m
      { s with frame := frameOf s.frame (frameLength vp) s.source
               source := s.source.drop (frameLength vp), readDraw := none, phase := .check } := by
  have xfer : step (goto .xfer s) = xferStep vp (goto .xfer s) := step_xfer rfl ha hc hv
  rw [runSteps_succ (step_avail hp ha hc hv hl), runSteps_succ (xfer.trans (xferStep_answered h hl))]
  rfl

/-- From AVAIL on, a command that validates ends with ShortRead, or runs as with no draw pending (R71). -/
theorem runSteps_avail_draw {k : Nat} (hp : s.phase = .avail) (ha : s.agenda = []) (hc : decodeWord s.cmdl = .ok i)
    (hv : validatesUnder i vp s) (hl : frameLength vp ≤ s.source.length) (hk : s.readDraw = some k) :
    runSteps (m + 2) s =
      if Config.srcMayFail = true ∧ k < frameLength vp then
        .next { s with err := 4, done := true, phase := .idle, source := s.source.drop k, readDraw := none }
      else runSteps (m + 2) { s with readDraw := none } := by
  split
  case isTrue h =>
    obtain ⟨hf, hlt⟩ := h
    exact runSteps_avail_short hp ha hc hv hl hk hf hlt
  case isFalse h =>
    have pending : ∀ j, s.readDraw = some j → ¬(Config.srcMayFail = true ∧ j < frameLength vp) := by
      intro j hj
      obtain rfl : j = k := Option.some.inj (hj.symm.trans hk)
      exact h
    rw [runSteps_avail_answered hp ha hc hv hl pending]
    exact (runSteps_avail_answered (s := { s with readDraw := none }) hp ha hc hv hl nofun).symm

end

/-! ### Scanning for a marker -/

section
variable {s : State} {i : Instr}

/-- The SCAN step at a byte that is no marker, the core alone moving (R131). -/
theorem step_scan_discard {b : Byte} {q : List Byte} (hi : i = .sync ∨ i = .read) (hp : s.phase = .scan)
    (ha : s.agenda = []) (hc : decodeWord s.cmdl = .ok i) (hd : s.dcnt ≠ 32) (hq : s.source = b :: q)
    (hm : markerOf b = none) : step s = .next { s with source := q, dcnt := s.dcnt + 1 } := by
  rw [step_busy (by simp [hp]) ha hc, exec_scan hi hp]
  simp only [scanStep, Config.syncBudget, if_neg hd, hq, srcPeek_cons, hm, srcPop_cons]

/-- READ's SCAN step at a marker, the core alone moving (R131). -/
theorem step_scan_marker_read {b : Byte} {q : List Byte} {p : ProtocolKind} (hp : s.phase = .scan) (ha : s.agenda = [])
    (hc : decodeWord s.cmdl = .ok .read) (hd : s.dcnt ≠ 32) (hq : s.source = b :: q) (hm : markerOf b = some p) :
    step s = .next (goto .avail { s with proto := p, pvalid := true }) := by
  rw [step_busy (by simp [hp]) ha hc, exec_scan (.inr rfl) hp]
  simp only [scanStep, Config.syncBudget, if_neg hd, hq, srcPeek_cons, hm, Instr.op, reduceCtorEq, if_false]

end

/-- A count of fewer than 32 discards is not the spent budget. -/
theorem dcnt_ne_budget {d : Nat} (h : d < 32) : BitVec.ofNat 6 d ≠ 32 := by
  intro e
  have := congrArg BitVec.toNat e
  rw [BitVec.toNat_ofNat, Nat.mod_eq_of_lt (by omega)] at this
  exact h.ne this

/-- Within the budget, SCAN discards the bytes before the first marker one a step and counts them (R131). -/
theorem runSteps_scan_garbage {i : Instr} (hi : i = .sync ∨ i = .read) {j d m : Nat} {s : State} (hp : s.phase = .scan)
    (ha : s.agenda = []) (hc : decodeWord s.cmdl = .ok i) (hd : s.dcnt = BitVec.ofNat 6 d) (hb : d + j ≤ 32)
    (hj : j ≤ garbage s.source) :
    runSteps (j + m) s =
      runSteps m { s with source := s.source.drop j, dcnt := BitVec.ofNat 6 (d + j) } := by
  induction j generalizing d s with
  | zero => rw [Nat.zero_add, Nat.add_zero, List.drop_zero, ← hd]
  | succ j ih =>
    cases hq : s.source with
    | nil => simp [hq] at hj
    | cons b q =>
      cases hm : markerOf b with
      | some p => simp [hq, garbage_cons_of_marker hm] at hj
      | none =>
        have discard := step_scan_discard hi hp ha hc (hd ▸ dcnt_ne_budget (by omega)) hq hm
        have counted : s.dcnt + 1 = BitVec.ofNat 6 (d + 1) := by rw [hd, BitVec.ofNat_add]; rfl
        have fewer : j ≤ garbage q := by
          rw [hq, garbage_cons_of_none hm] at hj
          omega
        rw [Nat.succ_add, runSteps_succ discard,
          ih (s := { s with source := q, dcnt := s.dcnt + 1 }) hp ha hc counted (by omega) fewer,
          Nat.add_right_comm d 1 j]
        rfl

/-- READ's scan from DCNT = 0, with the first marker within the budget, ends at that marker in AVAIL (R131, R242). -/
theorem runSteps_scan_read {s : State} {m : Nat} {b : Byte} {q : List Byte} {p : ProtocolKind} (hp : s.phase = .scan)
    (ha : s.agenda = []) (hc : decodeWord s.cmdl = .ok .read) (hd : s.dcnt = 0) (hg : garbage s.source ≤ 31)
    (hq : s.source.drop (garbage s.source) = b :: q) (hm : markerOf b = some p) :
    runSteps (garbage s.source + (m + 1)) s = runSteps m
      { s with proto := p, pvalid := true, dcnt := BitVec.ofNat 6 (garbage s.source)
               source := s.source.drop (garbage s.source), phase := .avail } := by
  rw [runSteps_scan_garbage (d := 0) (.inr rfl) hp ha hc hd (by omega) le_rfl, Nat.zero_add]
  exact runSteps_succ (step_scan_marker_read hp ha hc (dcnt_ne_budget (by omega)) hq hm)

/-! ### VALIDATE and READ with a draw pending -/

/-- READ at AVAIL: what its issue and its scan leave of an idle core `s` whose byte source has a `p` marker within the
budget (R241, R242). -/
def readAvail (s : State) (p : ProtocolKind) : State :=
  { s with agenda := [], cmdl := encodeWord .read, done := false, err := 0, pvalid := true, proto := p, fvalid := false
           rvalid := false, dcnt := BitVec.ofNat 6 (garbage s.source), source := s.source.drop (garbage s.source)
           phase := .avail }

/-- A READ that finds a marker within the budget comes to AVAIL, the bytes before the marker discarded (R242). -/
theorem runSteps_readAvail {s : State} (hp : s.phase = .idle) (ha : s.agenda = [.hostWrite 0x00 0x05]) {b : Byte}
    {q : List Byte} {p : ProtocolKind} (hg : garbage s.source ≤ 31) (hq : s.source.drop (garbage s.source) = b :: q)
    (hm : markerOf b = some p) :
    runSteps 39 s = runSteps (35 - garbage s.source + 2) (readAvail s p) := by
  have issue : step s = .next (issueRead { s with agenda := [] }) :=
    (step_write_legal (i := .read) hp ha rfl).trans (exec_idle hp)
  have steps : 38 = garbage s.source + (35 - garbage s.source + 2 + 1) := by omega
  rw [runSteps_succ issue, steps]
  exact runSteps_scan_read (s := issueRead { s with agenda := [] }) rfl rfl (decodeWord_encodeWord .read) rfl hg hq hm

/-- A VALIDATE comes to AVAIL at its issue (R150). -/
theorem runSteps_validate_avail {s : State} {i : Instr} {m : Nat} (hi : i = .validateP ∨ i = .validateC)
    (hp : s.phase = .idle) (ha : s.agenda = [.hostWrite 0x00 ((encodeWord i).setWidth 32)]) :
    runSteps (m + 1) s = runSteps m (issueValidate i { s with agenda := [] }) := by
  have issue : step s = .next (issued i { s with agenda := [] }) :=
    (step_write_legal hp ha (by rw [commandByte_setWidth, decodeWord_encodeWord])).trans (exec_idle hp)
  rw [runSteps_succ issue]
  rcases hi with rfl | rfl <;> rfl

/-- Settles O46: both commands come to AVAIL with the draw still pending, and run alike with and without it up to there. -/
theorem shortReadEndsValidateAndRead : Obligations.ShortReadEndsValidateAndRead := by
  constructor
  · intro s i vp k hi hp ha hk hl
    have names : i = .validateP ∨ i = .validateC := hi.imp And.left And.left
    have avail := runSteps_validate_avail (m := 3) names hp ha
    have avail_none := runSteps_validate_avail (s := { s with readDraw := none }) (m := 3) names hp ha
    have draw := runSteps_avail_draw (s := issueValidate i { s with agenda := [] }) (m := 1) rfl rfl
      (decodeWord_encodeWord i) (hi.imp_right .inl) hl hk
    rw [avail, avail_none, draw, ← hp]
    rfl
  · intro s k hp ha hk g b q p hg hq hm hl
    have avail := runSteps_readAvail hp ha hg hq hm
    have avail_none := runSteps_readAvail (s := { s with readDraw := none }) hp ha hg hq hm
    have draw := runSteps_avail_draw (s := readAvail s p) (m := 35 - g) rfl rfl (decodeWord_encodeWord .read)
      (.inr (.inr ⟨rfl, rfl⟩)) (hl.trans_eq (congrArg _ hq.symm)) hk
    rw [avail, avail_none, draw, ← hp, ← hq]
    rfl

end Sys2Proof.Machine
end

section
/-! PROOFS. The command word (30_encoding.md): what it decodes to, which words are legal, and a listing line of the one
family of commands that takes an operand beside its word (R112). -/

namespace Sys2Proof

/-! ### Decoding undoes encoding, and only the command's own word decodes to it -/

theorem decodeWord_eq_ok_iff {w : Byte} {i : Instr} : decodeWord w = .ok i ↔ w = encodeWord i := by
  constructor
  · exact fun h => (encodeWord_of_decodeWord h).symm
  · rintro rfl
    exact decodeWord_encodeWord i

@[simp] theorem decode_nil : decode [] = .error .noWord := rfl

/-- The decoder looks at the first byte only (R96: one length, 8 bits). -/
theorem decode_cons_eq_ok_iff {w : Byte} {bs rest : List Byte} {i : Instr} :
    decode (w :: bs) = .ok (i, rest) ↔ decodeWord w = .ok i ∧ bs = rest := by
  cases h : decodeWord w <;> simp [decode, h]

/-- Settles O3: bytes that decode start with a byte whose word is the command's, and conversely. -/
theorem decodeAndEncodeAgree : Obligations.DecodeAndEncodeAgree := by
  constructor
  · intro i rest
    exact decode_cons_eq_ok_iff.2 ⟨decodeWord_encodeWord i, rfl⟩
  · intro bs i rest h
    cases bs with
    | nil => simp at h
    | cons w bs =>
      obtain ⟨hw, rfl⟩ := decode_cons_eq_ok_iff.1 h
      obtain rfl := decodeWord_eq_ok_iff.1 hw
      rfl

/-! ### The legal words -/

/-- A word is legal exactly when it is some command's (R106). -/
theorem legalWord_iff_exists_encodeWord {w : Byte} : legalWord w = true ↔ ∃ i, w = encodeWord i := by
  simp only [← decodeWord_eq_ok_iff]
  unfold legalWord
  cases decodeWord w <;> simp

/-- The commands' words are the nine of the opcode map (R104). -/
theorem legalWord_iff_mem {w : Byte} :
    legalWord w = true ↔ w ∈ [0x01, 0x02, 0x0A, 0x03, 0x04, 0x14, 0x24, 0x34, 0x05] := by
  rw [legalWord_iff_exists_encodeWord]
  constructor
  · rintro ⟨i, rfl⟩
    cases i <;> decide
  · simp only [List.mem_cons, List.not_mem_nil, or_false]
    rintro (rfl | rfl | rfl | rfl | rfl | rfl | rfl | rfl | rfl)
    exacts [⟨.sync, rfl⟩, ⟨.validateP, rfl⟩, ⟨.validateC, rfl⟩, ⟨.decode, rfl⟩, ⟨.aqiPm25Us, rfl⟩, ⟨.aqiPm10Us, rfl⟩,
      ⟨.aqiPm25Cn, rfl⟩, ⟨.aqiPm10Cn, rfl⟩, ⟨.read, rfl⟩]

/-- Settles O1: each word of the map is the encoder's word of its command. -/
theorem nineWordsAreLegal : Obligations.NineWordsAreLegal :=
  ⟨decodeWord_encodeWord .sync, decodeWord_encodeWord .validateP, decodeWord_encodeWord .validateC,
    decodeWord_encodeWord .decode, decodeWord_encodeWord .aqiPm25Us, decodeWord_encodeWord .aqiPm10Us,
    decodeWord_encodeWord .aqiPm25Cn, decodeWord_encodeWord .aqiPm10Cn, decodeWord_encodeWord .read,
    fun _ => legalWord_iff_mem⟩

/-! ### The legal words by their fields -/

/-- The field checks (R96), one disjunct per kind of operation: none, a protocol or a pair in the operand bits. -/
theorem CmdWord.wellFormed_iff {c : CmdWord} :
    c.wellFormed = true ↔
      c.rsvd = 0 ∧
        ((c.op = 1 ∨ c.op = 3 ∨ c.op = 5) ∧ c.p = 0 ∧ c.pol = 0 ∧ c.std = 0
          ∨ c.op = 2 ∧ c.pol = 0 ∧ c.std = 0
          ∨ c.op = 4 ∧ c.p = 0) := by
  obtain ⟨rsvd, std, pol, p, op⟩ := c
  have ops : op = 0 ∨ op = 1 ∨ op = 2 ∨ op = 3 ∨ op = 4 ∨ op = 5 ∨ op = 6 ∨ op = 7 := by
    revert op
    decide
  rcases ops with rfl | rfl | rfl | rfl | rfl | rfl | rfl | rfl <;>
    simp [wellFormed, reservedClear, opDefined, protocolInPlace, pairInPlace, and_assoc]

/-- A slice of a word is 0 exactly when the two slices it consists of are. -/
theorem extractLsb'_add_eq_zero_iff {v : Nat} (x : BitVec v) (start m n : Nat) :
    x.extractLsb' start (m + n) = 0#(m + n) ↔ x.extractLsb' (start + n) m = 0#m ∧ x.extractLsb' start n = 0#n := by
  rw [← BitVec.extractLsb'_append_extractLsb'_eq_extractLsb' rfl, ← BitVec.zero_append_zero]
  constructor
  · intro h
    have high := congrArg (BitVec.extractLsb' n m) h
    have low := congrArg (BitVec.extractLsb' 0 n) h
    simp only [BitVec.extractLsb'_append_eq_left, BitVec.extractLsb'_append_eq_right] at high low
    exact ⟨high, low⟩
  · rintro ⟨high, low⟩
    rw [high, low]

/-- `w[5:4]` holds `STD` and `POL` (R96). -/
theorem extract_pair_eq_zero_iff (w : Byte) :
    w.extractLsb' 4 2 = 0 ↔ (splitWord w).pol = 0 ∧ (splitWord w).std = 0 :=
  (extractLsb'_add_eq_zero_iff w 4 1 1).trans and_comm

/-- `w[5:3]` holds the three operand bits (R96). -/
theorem extract_operands_eq_zero_iff (w : Byte) :
    w.extractLsb' 3 3 = 0 ↔ (splitWord w).p = 0 ∧ (splitWord w).pol = 0 ∧ (splitWord w).std = 0 := by
  rw [← extract_pair_eq_zero_iff]
  exact (extractLsb'_add_eq_zero_iff w 3 2 1).trans and_comm

/-- Settles O2: the nine words, and the field checks of the word taken apart. -/
theorem legalWordsByFields : Obligations.LegalWordsByFields := by
  refine fun w => ⟨legalWord_iff_mem, ?_⟩
  rw [legalWord_eq_wellFormed, CmdWord.wellFormed_iff, extract_pair_eq_zero_iff, extract_operands_eq_zero_iff]
  rfl

end Sys2Proof

namespace Sys2Proof.Machine

/-! ### A listing line of a standalone conversion (R112) -/

/-- The host's write to OPERAND of an idle core (10_state.md R38). -/
theorem step_write_operand {s : State} {v : Word} {rest : List AgentAction} (hp : s.phase = .idle)
    (ha : s.agenda = .hostWrite 0x02 v :: rest) : step s = .next { s with agenda := rest, operand := v } :=
  idleWritesReachOnlyOperand s 0x02 v rest hp ha (by decide)

/-- A command that names a pollutant and a standard is issued to AQI1 (60_exceptions.md R285). -/
theorem issued_of_pairOperand {i : Instr} {q : Pollutant × Standard} (h : i.pairOperand = some q) (s : State) :
    issued i s = issueAqi i s := by
  cases i <;> simp only [Instr.pairOperand, reduceCtorEq] at h <;> rfl

/-- A standalone conversion's word written to CMD of an idle core issues it. -/
theorem step_write_aqi {s : State} {i : Instr} {q : Pollutant × Standard} {rest : List AgentAction}
    (hi : i.pairOperand = some q) (hp : s.phase = .idle)
    (ha : s.agenda = .hostWrite 0x00 ((encodeWord i).setWidth 32) :: rest) :
    step s = .next (issueAqi i { s with agenda := rest }) := by
  have legal : decodeWord (commandByte ((encodeWord i).setWidth 32)) = .ok i := by
    rw [commandByte_setWidth, decodeWord_encodeWord]
  rw [step_write_legal hp ha legal, exec_idle (by exact hp), issued_of_pairOperand hi]

/-- The AQI1 step of a busy core, the core alone moving (43_aqi.md R214). -/
theorem step_aqi1 {s : State} {i : Instr} {p : Pollutant} {d : Standard} (hi : i.pairOperand = some (p, d))
    (hp : s.phase = .aqi1) (ha : s.agenda = []) (hc : decodeWord s.cmdl = .ok i) :
    step s = .next (aqi1Step p d s) := by
  rw [step_busy (by simp [hp]) ha hc, exec_aqi1 hi hp]

/-- What a conversion's issue and its AQI1 step change together. -/
theorem aqi1Step_issueAqi (i : Instr) (p : Pollutant) (d : Standard) (s : State) :
    aqi1Step p d (issueAqi i s) =
      { s with phase := .idle, cmdl := encodeWord i, done := true, err := 0
               result := BitVec.ofNat 32 (aqi p d (operandValue s.operand)) } := rfl

/-- Settles O44: the write to OPERAND, the issue, the conversion. -/
theorem aqiLineRunsToItsEnd : Obligations.AqiLineRunsToItsEnd := by
  intro s v i p d hi hp ha
  have issue := step_write_aqi (s := { s with agenda := [_], operand := v }) hi hp rfl
  have convert := step_aqi1 (s := issueAqi i { s with agenda := [], operand := v }) hi rfl rfl (decodeWord_encodeWord i)
  rw [runSteps_succ (step_write_operand hp ha), runSteps_succ issue, runSteps_succ convert, runSteps_zero,
    aqi1Step_issueAqi, ← hp]

end Sys2Proof.Machine
end

section
/-! PROOFS. The synchronizer (40_sync.md): the arms of the SCAN step, and SYNC from issue to end. -/

namespace Sys2Proof.Machine

/-! ### The arms of the SCAN step (R131), each with what selects it -/

section
variable {op : Op} {s : State} {b : Byte} {q : List Byte}

/-- The budget is tested before the peek (R136), so the byte source is not looked at. -/
theorem scanStep_spent (hd : s.dcnt = 32) : scanStep op s = raise .noStartByte s := if_pos hd

theorem scanStep_empty (hd : s.dcnt ≠ 32) (hq : s.source = []) : scanStep op s = raise .starved s := by
  rw [scanStep, Config.syncBudget, if_neg hd, hq, srcPeek_nil]

/-- The marker is not consumed; the commands differ in where they go on. -/
theorem scanStep_marker {p : ProtocolKind} (hd : s.dcnt ≠ 32) (hq : s.source = b :: q) (hm : markerOf b = some p) :
    scanStep op s =
      if op = .sync then endOk { s with proto := p, pvalid := true }
      else goto .avail { s with proto := p, pvalid := true } := by
  simp only [scanStep, Config.syncBudget, if_neg hd, hq, srcPeek_cons, hm]

theorem scanStep_other (hd : s.dcnt ≠ 32) (hq : s.source = b :: q) (hm : markerOf b = none) :
    scanStep op s = { s with source := q, dcnt := s.dcnt + 1 } := by
  simp only [scanStep, Config.syncBudget, if_neg hd, hq, srcPeek_cons, hm, srcPop_cons]

end

/-- At a marker SYNC is done and READ goes on to AVAIL (R131). -/
theorem exec_scan_marker {s : State} {b : Byte} {q : List Byte} {p : ProtocolKind} (hp : s.phase = .scan)
    (hd : s.dcnt ≠ 32) (hq : s.source = b :: q) (hm : markerOf b = some p) :
    exec .sync s = .next { s with proto := p, pvalid := true, err := 0, done := true, phase := .idle }
      ∧ exec .read s = .next { s with proto := p, pvalid := true, phase := .avail } := by
  rw [exec_scan (.inl rfl) hp, exec_scan (.inr rfl) hp, scanStep_marker hd hq hm, scanStep_marker hd hq hm]
  exact ⟨rfl, rfl⟩

/-- Settles O18: both commands run the one SCAN step, whose arm is selected by DCNT, the head and the marker test. -/
theorem scanStepOfSyncAndRead : Obligations.ScanStepOfSyncAndRead := by
  intro s hp
  have scan : ∀ i ∈ [Instr.sync, Instr.read], exec i s = .next (scanStep i.op s) :=
    fun i hi => exec_scan (by simpa using hi) hp
  refine ⟨?spent, ?empty, ?plantower, ?cubic, ?other⟩
  case spent =>
    intro i hi hd
    rw [scan i hi, scanStep_spent hd]
    rfl
  case empty =>
    intro i hi hd hq
    rw [scan i hi, scanStep_empty hd hq]
    rfl
  case plantower => exact fun b q hd hq hb => exec_scan_marker hp hd hq (markerOf_eq_some.2 (.inl ⟨hb, rfl⟩))
  case cubic => exact fun b q hd hq hb => exec_scan_marker hp hd hq (markerOf_eq_some.2 (.inr ⟨hb, rfl⟩))
  case other =>
    intro i hi b q hd hq not_p not_c
    rw [scan i hi, scanStep_other hd hq (markerOf_eq_none.2 ⟨not_p, not_c⟩)]

/-! ### SYNC from issue to end -/

/-- The SCAN step of a busy core, the core alone moving. -/
theorem step_scan {s : State} {i : Instr} (hi : i = .sync ∨ i = .read) (hp : s.phase = .scan) (ha : s.agenda = [])
    (hc : decodeWord s.cmdl = .ok i) : step s = .next (scanStep i.op s) := by
  rw [step_busy (by simp [hp]) ha hc, exec_scan hi hp]

/-- SYNC in SCAN after `j` discards, issued by an idle core `s` (R130, R131). -/
def syncScan (s : State) (j : Nat) : State :=
  { s with agenda := [], cmdl := encodeWord .sync, done := false, err := 0, pvalid := false, dcnt := BitVec.ofNat 6 j
           source := s.source.drop j, phase := .scan }

/-- Within the budget and before the first marker SYNC, once issued, discards a byte a step (R131). -/
theorem runSteps_issueSync {s : State} {j m : Nat} (hj : j ≤ 32) (hg : j ≤ garbage s.source) :
    runSteps (j + m) (issueSync { s with agenda := [] }) = runSteps m (syncScan s j) := by
  have discards := runSteps_scan_garbage (i := .sync) (d := 0) (m := m) (s := issueSync { s with agenda := [] })
    (.inl rfl) rfl rfl (decodeWord_encodeWord .sync) rfl (by omega) hg
  rw [discards, Nat.zero_add]
  rfl

/-- A SYNC whose SCAN step after `j` discards returns the core to idle has ended there, within 34 steps: the issue, at
most 32 discards and that step. -/
theorem runSteps_sync {s t : State} {j : Nat} (hp : s.phase = .idle) (ha : s.agenda = [.hostWrite 0x00 0x01])
    (hj : j ≤ 32) (hg : j ≤ garbage s.source) (last : scanStep .sync (syncScan s j) = t) (idle : t.phase = .idle)
    (alone : t.agenda = []) : runSteps 34 s = .next t := by
  have issue : step s = .next (issueSync { s with agenda := [] }) :=
    (step_write_legal (i := .sync) hp ha rfl).trans (exec_idle hp)
  have ends : step (syncScan s j) = .next (scanStep .sync (syncScan s j)) :=
    step_scan (s := syncScan s j) (i := .sync) (.inl rfl) rfl rfl (decodeWord_encodeWord .sync)
  have steps : 33 = j + (32 - j + 1) := by omega
  rw [runSteps_succ issue, steps, runSteps_issueSync hj hg, runSteps_succ ends, last]
  exact runSteps_idle idle alone

/-- Settles O41: the bytes before the first marker are discarded as far as the budget goes, and the SCAN step that
follows ends the command. -/
theorem syncRunsToItsEnd : Obligations.SyncRunsToItsEnd := by
  intro s hp ha g
  refine ⟨?found, ?spent, ?dry⟩
  case found =>
    intro b q p hg hq hm
    have last := scanStep_marker (op := .sync) (s := syncScan s g) (dcnt_ne_budget (by omega)) hq hm
    rw [runSteps_sync hp ha (by omega) le_rfl last rfl rfl, hp, ← hq]
    rfl
  case spent =>
    intro hg
    have last := scanStep_spent (op := .sync) (s := syncScan s 32) rfl
    rw [runSteps_sync hp ha le_rfl hg last rfl rfl, hp]
    rfl
  case dry =>
    intro hg hl
    have empty : s.source.drop g = [] := List.drop_eq_nil_of_le hl.le
    have last := scanStep_empty (op := .sync) (s := syncScan s g) (dcnt_ne_budget (by omega)) empty
    rw [runSteps_sync hp ha (by omega) le_rfl last rfl rfl, hp, ← empty]
    rfl

end Sys2Proof.Machine
end

section
/-! PROOFS. The validator (41_validate.md): the header check and the two checksums over any FRAME, what one byte changed
does to them, the steps AVAIL, XFER and CHECK, and VALIDATE from issue to end. -/

namespace Sys2Proof.Machine

/-! ### The header check (R155, R156) -/

/-- The header of a protocol's frames (R155, R156). -/
def headerBytes : ProtocolKind → List Byte
  | .plantowerPM => Config.hdrP
  | .cubicPM1006 => Config.hdrC

theorem headerOk_eq_frameStartsWith (vp : ProtocolKind) (m : Memory) :
    headerOk vp m = frameStartsWith m 0 (headerBytes vp) := by
  cases vp <;> rfl

theorem frameStartsWith_nil (m : Memory) (a : Nat) : frameStartsWith m a [] = true := rfl

theorem frameStartsWith_cons {m : Memory} {a : Nat} {b : Byte} {bs : List Byte} :
    frameStartsWith m a (b :: bs) = true ↔ Memory.read m a = b ∧ frameStartsWith m (a + 1) bs = true := by
  rw [frameStartsWith, Bool.and_eq_true, beq_iff_eq]

/-- The test of FRAME's first bytes, one byte at a time. -/
theorem frameStartsWith_iff {m : Memory} {a : Nat} {bs : List Byte} :
    frameStartsWith m a bs = true ↔ ∀ (j : Nat) (hj : j < bs.length), Memory.read m (a + j) = bs[j] := by
  induction bs generalizing a with
  | nil => simp [frameStartsWith_nil]
  | cons b bs ih =>
    rw [frameStartsWith_cons, ih]
    constructor
    · rintro ⟨first, rest⟩ (_ | j) hj
      · exact first
      · rw [← Nat.add_assoc, Nat.add_right_comm]
        exact rest j (Nat.lt_of_succ_lt_succ hj)
    · intro h
      refine ⟨h 0 (Nat.zero_lt_succ _), fun j hj => ?_⟩
      rw [Nat.add_right_comm]
      exact h (j + 1) (Nat.succ_lt_succ hj)

theorem headerOk_iff {vp : ProtocolKind} {m : Memory} :
    headerOk vp m = true ↔
      ∀ (j : Nat) (hj : j < (headerBytes vp).length), Memory.read m j = (headerBytes vp)[j] := by
  rw [headerOk_eq_frameStartsWith, frameStartsWith_iff]
  simp only [Nat.zero_add]

/-- Settles O22: the bytes of each header, one by one. -/
theorem headerCheckComparesTheHeaderBytes : Obligations.HeaderCheckComparesTheHeaderBytes := by
  intro m
  simp only [headerOk, Config.hdrP, Config.hdrC, frameStartsWith_cons, frameStartsWith_nil, and_true, and_self]

/-! ### The sums (R158 to R160) -/

theorem byteSum_succ (m : Memory) (n : Nat) : byteSum m (n + 1) = byteSum m n + (Memory.read m n).toNat := rfl

theorem byteSum_eq_sum (m : Memory) (n : Nat) : byteSum m n = ∑ a ∈ Finset.range n, (Memory.read m a).toNat := by
  induction n with
  | zero => rfl
  | succ n ih => rw [Finset.sum_range_succ, byteSum_succ, ih]

/-- A byte adds at most 255 (R160). -/
theorem byteSum_le (m : Memory) (n : Nat) : byteSum m n ≤ 255 * n := by
  induction n with
  | zero => rfl
  | succ n ih =>
    have byte := (Memory.read m n).isLt
    rw [byteSum_succ]
    omega

/-- The PlantowerPM sum never wraps (R160): it is the plain sum of its 30 bytes. -/
theorem toNat_frameSum_plantowerPM (m : Memory) : (frameSum .plantowerPM m).toNat = byteSum m 30 := by
  have bound := byteSum_le m 30
  rw [frameSum, BitVec.toNat_ofNat, Config.sumEndP, Nat.mod_eq_of_lt (by omega)]

/-- The CubicPM1006 sum is 8 bits wide, whatever the width of the register it is held in (R159). -/
theorem toNat_frameSum_cubicPM1006 (m : Memory) : (frameSum .cubicPM1006 m).toNat = byteSum m 20 % 256 := by
  rw [frameSum, BitVec.toNat_setWidth_of_le (by decide), BitVec.toNat_ofNat, Config.lenC]

/-- A big-endian pair of bytes fits its 16 bits. -/
theorem toNat_memRead2 (m : Memory) (a : Nat) :
    (memRead2 m a).toNat = (Memory.read m a).toNat * 256 + (Memory.read m (a + 1)).toNat := by
  have high := (Memory.read m a).isLt
  have low := (Memory.read m (a + 1)).isLt
  exact Nat.mod_eq_of_lt (by omega)

/-- The full 16 bits are compared (R158). -/
theorem checksumOk_plantowerPM_iff {m : Memory} :
    checksumOk .plantowerPM m = true ↔
      byteSum m 30 = (Memory.read m 30).toNat * 256 + (Memory.read m 31).toNat := by
  rw [checksumOk, beq_iff_eq, ← BitVec.toNat_inj, toNat_frameSum_plantowerPM, toNat_memRead2]

theorem checksumOk_cubicPM1006_iff {m : Memory} : checksumOk .cubicPM1006 m = true ↔ byteSum m 20 % 256 = 0 := by
  rw [checksumOk, beq_iff_eq, ← BitVec.toNat_inj, toNat_frameSum_cubicPM1006]
  rfl

/-- Settles O23: the sums as they stand in ACC, and the comparison each protocol makes. -/
theorem checksumsAreAdditive : Obligations.ChecksumsAreAdditive := by
  intro m
  have bound := byteSum_le m 30
  rw [← byteSum_eq_sum, ← byteSum_eq_sum]
  refine ⟨?sum_p, ?passes_p, toNat_frameSum_cubicPM1006 m, checksumOk_cubicPM1006_iff⟩
  case sum_p => rw [toNat_frameSum_plantowerPM, Nat.mod_eq_of_lt (by omega)]
  case passes_p => rw [toNat_frameSum_plantowerPM, checksumOk_plantowerPM_iff]

/-! ### Two bytes exchanged (R160) -/

/-- Exchanging two bytes of FRAME reads it through the transposition of their indices. -/
theorem Memory.read_exchange {m : Memory} (h : Memory.wf m = true) {i : Nat} (hi : i < 32) (j a : Nat) :
    Memory.read (Memory.write (Memory.write m i (Memory.read m j)) j (Memory.read m i)) a
      = Memory.read m (Equiv.swap i j a) := by
  rw [Memory.read_write (Memory.wf_write _ hi h), Memory.read_write h, Equiv.swap_apply_def]
  by_cases hj : a = j
  · by_cases hij : a = i
    · rw [if_pos hj, if_pos hij, ← hij, hj]
    · rw [if_pos hj, if_neg hij, if_pos hj]
  · rw [if_neg hj, if_neg hj]
    split <;> rfl

/-- A sum does not see two of its bytes exchanged (R160): it is taken over the same indices in another order. -/
theorem byteSum_exchange {m : Memory} (h : Memory.wf m = true) {n i j : Nat} (hn : n ≤ 32) (hi : i < n) (hj : j < n) :
    byteSum (Memory.write (Memory.write m i (Memory.read m j)) j (Memory.read m i)) n = byteSum m n := by
  have moved : {a | Equiv.swap i j a ≠ a} ⊆ (Finset.range n : Set Nat) := by
    intro a ha
    rw [Finset.coe_range, Set.mem_Iio]
    rcases (Equiv.swap_apply_ne_self_iff.1 ha).2 with rfl | rfl
    · exact hi
    · exact hj
  simp only [byteSum_eq_sum, Memory.read_exchange h (hi.trans_le hn)]
  exact Equiv.Perm.sum_comp _ _ (fun a => (Memory.read m a).toNat) moved

/-- Settles O38: the bounds from 255 a byte, the exchange from the sums it leaves. -/
theorem lawsOfTheSums : Obligations.LawsOfTheSums := by
  intro m
  have bound_p := byteSum_le m 30
  have bound_c := byteSum_le m 20
  rw [← byteSum_eq_sum, ← byteSum_eq_sum, toNat_frameSum_plantowerPM]
  refine ⟨rfl, bound_p, ?above, bound_c, ?exchange_p, ?exchange_c⟩
  case above =>
    intro hw
    rw [Bool.eq_false_iff, ne_eq, checksumOk_plantowerPM_iff]
    omega
  case exchange_p =>
    intro h i j hi hj
    rw [frameSum, frameSum, Config.sumEndP, byteSum_exchange h (by decide) hi hj]
  case exchange_c =>
    intro h i j hi hj
    rw [frameSum, frameSum, Config.lenC, byteSum_exchange h (by decide) hi hj]

/-! ### One byte changed (R162, R163) -/

section
variable {m : Memory} {i n : Nat} {b : Byte} {vp : ProtocolKind}

theorem byteSum_write_outside (h : Memory.wf m = true) (hn : n ≤ i) :
    byteSum (Memory.write m i b) n = byteSum m n := by
  induction n with
  | zero => rfl
  | succ n ih => rw [byteSum_succ, byteSum_succ, ih (by omega), Memory.read_write_other h _ (by omega)]

/-- A changed byte of the region changes the sum by the byte's own change. -/
theorem byteSum_write_inside (h : Memory.wf m = true) (hi : i < n) :
    byteSum (Memory.write m i b) n + (Memory.read m i).toNat = byteSum m n + b.toNat := by
  induction n with
  | zero => exact absurd hi (Nat.not_lt_zero i)
  | succ n ih =>
    rw [byteSum_succ, byteSum_succ]
    by_cases hin : i = n
    · subst hin
      rw [byteSum_write_outside h le_rfl, Memory.read_write_same h]
      exact Nat.add_right_comm _ _ _
    · have rest := ih (by omega)
      rw [Memory.read_write_other h _ (Ne.symm hin)]
      omega

/-- No one byte can be changed without the checksum failing: the sum changes by less than 256, or the wire's value does
and the sum does not. -/
theorem checksumOk_write_of_ne (h : Memory.wf m = true) (hc : checksumOk vp m = true) (hi : i < frameLength vp)
    (hb : b ≠ Memory.read m i) : checksumOk vp (Memory.write m i b) = false := by
  have differ : b.toNat ≠ (Memory.read m i).toNat := fun e => hb (BitVec.eq_of_toNat_eq e)
  rw [Bool.eq_false_iff]
  cases vp with
  | plantowerPM =>
    replace hi : i < 32 := hi
    rw [checksumOk_plantowerPM_iff] at hc
    rw [ne_eq, checksumOk_plantowerPM_iff]
    obtain hi | rfl | rfl : i < 30 ∨ i = 30 ∨ i = 31 := by omega
    · have sum := byteSum_write_inside (b := b) h hi
      rw [Memory.read_write_other h b (by omega), Memory.read_write_other h b (by omega)]
      omega
    · rw [byteSum_write_outside h le_rfl, Memory.read_write_same h, Memory.read_write_other h b (by decide)]
      omega
    · rw [byteSum_write_outside h (by decide), Memory.read_write_same h, Memory.read_write_other h b (by decide)]
      omega
  | cubicPM1006 =>
    have sum := byteSum_write_inside (b := b) h (show i < 20 from hi)
    have new := b.isLt
    have old := (Memory.read m i).isLt
    rw [checksumOk_cubicPM1006_iff] at hc
    rw [ne_eq, checksumOk_cubicPM1006_iff]
    omega

theorem headerOk_write_of_ne (h : Memory.wf m = true) (hh : headerOk vp m = true) (hi : i < (headerBytes vp).length)
    (hb : b ≠ Memory.read m i) : headerOk vp (Memory.write m i b) = false := by
  rw [Bool.eq_false_iff]
  intro again
  have new := headerOk_iff.1 again i hi
  rw [Memory.read_write_same h] at new
  exact hb (new.trans (headerOk_iff.1 hh i hi).symm)

theorem headerOk_write_beyond (h : Memory.wf m = true) (hh : headerOk vp m = true) (hi : (headerBytes vp).length ≤ i) :
    headerOk vp (Memory.write m i b) = true := by
  refine headerOk_iff.2 fun j hj => ?_
  rw [Memory.read_write_other h b (by omega)]
  exact headerOk_iff.1 hh j hj

end

/-! ### The AVAIL step (R152) -/

/-- Settles O19: the count is compared with the length of the protocol's frames. -/
theorem availStepTestsTheFrameLength : Obligations.AvailStepTestsTheFrameLength := by
  intro s i vp hp hv
  rw [exec_avail hv hp]
  cases vp with
  | plantowerPM => rfl
  | cubicPM1006 => rfl

/-! ### The XFER step (R153) -/

/-- The byte XFER leaves in FRAME, at every index: the bytes read in arrival order, and 0x00 after them. -/
theorem read_frameOf {m : Memory} {vp : ProtocolKind} {q : List Byte} (hl : frameLength vp ≤ q.length)
    (h : Memory.wf m = true) (a : Nat) :
    Memory.read (frameOf m (frameLength vp) q) a = (q.take (frameLength vp)).getD a 0x00 := by
  have taken : (q.take (frameLength vp)).length = frameLength vp := List.length_take_of_le hl
  by_cases ha : a < 32
  · exact read_loadFrame taken (frameLength_le vp) h ha
  · have short := frameLength_le vp
    rw [Memory.read_outside (wf_frameOf hl h) (not_lt.1 ha), List.getD_eq_default _ _ (by omega)]

/-- Settles O21: the buffer is the one a read-exact leaves, and the transport's draw decides between its two answers. -/
theorem xferStepMovesTheFrame : Obligations.XferStepMovesTheFrame := by
  intro s i vp hp hv hl hf
  refine ⟨frameOf s.frame (frameLength vp) s.source, wf_frameOf hl hf, ?inside, ?rest, ?_⟩
  case inside =>
    intro a ha
    rw [read_frameOf hl hf, List.getD_eq_getElem?_getD, List.getElem?_take_of_lt ha,
      List.getElem?_eq_getElem (ha.trans_le hl), Option.getD_some]
  case rest =>
    intro a ha
    rw [read_frameOf hl hf, List.getD_eq_default]
    exact (List.length_take_le _ _).trans ha
  intro answered
  rw [exec_xfer hv hp]
  refine ⟨?undrawn, ?long, ?short⟩
  case undrawn =>
    intro hd
    exact xferStep_answered (by simp [hd]) hl
  case long =>
    intro k hd hk
    exact xferStep_answered (by simp [hd, hk]) hl
  case short =>
    intro k hd hk
    cases hm : Config.srcMayFail with
    | true => exact xferStep_short hd hm hk hl
    | false => exact xferStep_answered (by simp [hm]) hl

/-! ### The CHECK step (R157), each arm with what selects it -/

section
variable {op : Op} {vp : ProtocolKind} {s : State}

/-- The header is tested first, so the sum is not looked at. -/
theorem checkStep_badHeader (hh : headerOk vp s.frame = false) : checkStep op vp s = raise .badHeader s := if_pos hh

theorem checkStep_badChecksum (hh : headerOk vp s.frame = true) (hc : checksumOk vp s.frame = false) :
    checkStep op vp s = raise .badChecksum { s with acc := frameSum vp s.frame } := by
  rw [checkStep, if_neg (by simp [hh]), if_pos hc]

/-- A good frame is recorded; the commands differ in where they go on. -/
theorem checkStep_good (hh : headerOk vp s.frame = true) (hc : checksumOk vp s.frame = true) :
    checkStep op vp s =
      if op = .validate then endOk { s with acc := frameSum vp s.frame, fvalid := true, fproto := vp }
      else goto .dec { s with acc := frameSum vp s.frame, fvalid := true, fproto := vp } := by
  rw [checkStep, if_neg (by simp [hh]), if_neg (by simp [hc])]

end

/-- Settles O24: the three commands run the one CHECK step, whose arm the two tests and the command select. -/
theorem checkStepHeaderThenSum : Obligations.CheckStepHeaderThenSum := by
  intro s i vp hp hv
  rw [exec_check hv hp]
  refine ⟨?header, ?sum, ?validate, ?read⟩
  case header =>
    intro hh
    rw [checkStep_badHeader hh]
    rfl
  case sum =>
    intro hh hc
    rw [checkStep_badChecksum hh hc]
    rfl
  case validate =>
    intro hh hc hi
    have op : i.op = .validate := by
      rcases hv with ⟨rfl, -⟩ | ⟨rfl, -⟩ | ⟨rfl, -⟩
      · rfl
      · rfl
      · exact absurd rfl hi
    rw [checkStep_good hh hc, if_pos op]
    rfl
  case read =>
    rintro hh hc rfl
    rw [checkStep_good hh hc]
    rfl

/-! ### Single-bit errors (R162, R163) -/

/-- A frame that passes, with one of its bytes changed, is rejected by CHECK: with BadHeader where the byte is one of the
header's, with BadChecksum elsewhere; FVALID is not set. -/
theorem checkStep_write_of_ne {op : Op} {vp : ProtocolKind} {s : State} {i : Nat} {b : Byte}
    (h : Memory.wf s.frame = true) (hh : headerOk vp s.frame = true) (hc : checksumOk vp s.frame = true)
    (hi : i < frameLength vp) (hb : b ≠ Memory.read s.frame i) :
    let t := checkStep op vp { s with frame := Memory.write s.frame i b }
    t.err = (if i < (headerBytes vp).length then 5 else 6)
      ∧ t.done = true ∧ t.phase = .idle ∧ t.fvalid = s.fvalid := by
  intro t
  by_cases header : i < (headerBytes vp).length
  · have ends : t = raise .badHeader _ := checkStep_badHeader (headerOk_write_of_ne h hh header hb)
    rw [ends, if_pos header]
    exact ⟨rfl, rfl, rfl, rfl⟩
  · have ends : t = raise .badChecksum _ :=
      checkStep_badChecksum (headerOk_write_beyond h hh (not_lt.1 header)) (checksumOk_write_of_ne h hc hi hb)
    rw [ends, if_neg header]
    exact ⟨rfl, rfl, rfl, rfl⟩

/-- A flipped bit changes its byte. -/
theorem xor_twoPow_ne {k : Nat} (hk : k < 8) (b : Byte) : b ^^^ BitVec.twoPow 8 k ≠ b := by
  intro e
  have bit := congrArg (fun c : Byte => c.getLsbD k) e
  simp [hk] at bit

/-- Settles O39: a flipped bit is a changed byte, and the header is bytes 0 and 1. -/
theorem singleBitErrorsOfPlantowerFrames : Obligations.SingleBitErrorsOfPlantowerFrames := by
  intro s i k hp hf hh hc hi hk
  exact ⟨_, exec_check (.inl ⟨rfl, rfl⟩) hp, checkStep_write_of_ne hf hh hc hi (xor_twoPow_ne hk _)⟩

/-- Settles O40: a flipped bit is a changed byte, and the header is bytes 0 to 2. -/
theorem singleBitErrorsOfCubicFrames : Obligations.SingleBitErrorsOfCubicFrames := by
  intro s i k hp hf hh hc hi hk
  exact ⟨_, exec_check (.inr (.inl ⟨rfl, rfl⟩)) hp, checkStep_write_of_ne hf hh hc hi (xor_twoPow_ne hk _)⟩

/-! ### VALIDATE from issue to end -/

section
variable {s : State} {i : Instr} {vp : ProtocolKind}

/-- The AVAIL step of a busy core with too few bytes in the byte source, the core alone moving (R152). -/
theorem step_avail_incomplete (hp : s.phase = .avail) (ha : s.agenda = []) (hc : decodeWord s.cmdl = .ok i)
    (hv : validatesUnder i vp s) (hl : s.source.length < frameLength vp) :
    step s = .next (raise .incomplete s) := by
  rw [step_busy (by simp [hp]) ha hc, exec_avail hv hp, availStep, srcAvail, if_neg (not_le.2 hl)]

/-- The CHECK step of a busy core, the core alone moving. -/
theorem step_check (hp : s.phase = .check) (ha : s.agenda = []) (hc : decodeWord s.cmdl = .ok i)
    (hv : validatesUnder i vp s) : step s = .next (checkStep i.op vp s) := by
  rw [step_busy (by simp [hp]) ha hc, exec_check hv hp]

end

/-- VALIDATE at CHECK: what its issue, AVAIL and XFER leave of an idle core `s` with a whole `vp` frame in its byte
source and no draw pending (R150 to R153). -/
def validateCheck (i : Instr) (vp : ProtocolKind) (s : State) : State :=
  { s with agenda := [], cmdl := encodeWord i, done := false, err := 0, fvalid := false
           frame := frameOf s.frame (frameLength vp) s.source, source := s.source.drop (frameLength vp)
           readDraw := none, phase := .check }

/-- A VALIDATE with a whole frame in the byte source ends as its CHECK step does. -/
theorem runSteps_validate_check {s : State} {i : Instr} {vp : ProtocolKind}
    (hi : (i = .validateP ∧ vp = .plantowerPM) ∨ (i = .validateC ∧ vp = .cubicPM1006)) (hp : s.phase = .idle)
    (ha : s.agenda = [.hostWrite 0x00 ((encodeWord i).setWidth 32)]) (hd : s.readDraw = none)
    (hl : frameLength vp ≤ s.source.length) :
    runSteps 4 s = .next (checkStep .validate vp (validateCheck i vp s)) := by
  have op : i.op = .validate := by rcases hi with ⟨rfl, -⟩ | ⟨rfl, -⟩ <;> rfl
  have avail := runSteps_validate_avail (m := 3) (hi.imp And.left And.left) hp ha
  have moved := runSteps_avail_answered (s := issueValidate i { s with agenda := [] }) (m := 1) rfl rfl
    (decodeWord_encodeWord i) (hi.imp_right .inl) hl (by simp [issueValidate, hd])
  have check := step_check (s := validateCheck i vp s) rfl rfl (decodeWord_encodeWord i) (hi.imp_right .inl)
  rw [op] at check
  exact avail.trans (moved.trans (runSteps_succ check))

/-- A VALIDATE with too few bytes in the byte source ends with Incomplete (R152). -/
theorem runSteps_validate_incomplete {s : State} {i : Instr} {vp : ProtocolKind}
    (hi : (i = .validateP ∧ vp = .plantowerPM) ∨ (i = .validateC ∧ vp = .cubicPM1006)) (hp : s.phase = .idle)
    (ha : s.agenda = [.hostWrite 0x00 ((encodeWord i).setWidth 32)]) (hl : s.source.length < frameLength vp) :
    runSteps 4 s = .next (raise .incomplete (issueValidate i { s with agenda := [] })) := by
  have avail := runSteps_validate_avail (m := 3) (hi.imp And.left And.left) hp ha
  have ends := step_avail_incomplete (s := issueValidate i { s with agenda := [] }) rfl rfl
    (decodeWord_encodeWord i) (hi.imp_right .inl) hl
  rw [avail, runSteps_succ ends]
  exact runSteps_idle rfl rfl

/-- Settles O42: with a whole frame the outcome is that of the CHECK step over it, without one that of AVAIL. -/
theorem validateRunsToItsEnd : Obligations.ValidateRunsToItsEnd := by
  intro s i vp hi hp ha hd n f
  refine ⟨?incomplete, ?header, ?sum, ?good⟩
  case incomplete =>
    intro hl
    rw [runSteps_validate_incomplete hi hp ha hl, hp]
    rfl
  case header =>
    intro hl hh
    rw [runSteps_validate_check hi hp ha hd hl, checkStep_badHeader (s := validateCheck i vp s) hh, hp, hd]
    rfl
  case sum =>
    intro hl hh hc
    rw [runSteps_validate_check hi hp ha hd hl, checkStep_badChecksum (s := validateCheck i vp s) hh hc, hp, hd]
    rfl
  case good =>
    intro hl hh hc
    rw [runSteps_validate_check hi hp ha hd hl, checkStep_good (s := validateCheck i vp s) hh hc, hp, hd]
    rfl

end Sys2Proof.Machine
end

section
/-! PROOFS. The frame decoder (42_decode.md): the steps DEC and CONV that DECODE and READ share, and DECODE from issue to
end. -/

namespace Sys2Proof.Machine

/-! ### The DEC step (R181) under each protocol -/

section
variable {s : State}

theorem decStep_plantowerPM (hf : s.fproto = .plantowerPM) :
    decStep s = goto .conv { s with reading := fieldsP s.frame s.reading, hasCounts := true } := by
  rw [decStep, hf]

theorem decStep_cubicPM1006 (hf : s.fproto = .cubicPM1006) :
    decStep s = goto .conv { s with reading := fieldsC s.frame s.reading, hasCounts := false } := by
  rw [decStep, hf]

end

/-- Settles O25: wire field `k` is by definition the big-endian pair at byte `2k + 2`. -/
theorem decStepOfAPlantowerFrame : Obligations.DecStepOfAPlantowerFrame := by
  intro s i hi hp hf be
  rw [exec_dec hi hp, decStep_plantowerPM hf]
  rfl

/-- Settles O26: the one populated field is by definition the big-endian pair at byte 5. -/
theorem decStepOfACubicFrame : Obligations.DecStepOfACubicFrame := by
  intro s i hi hp hf
  rw [exec_dec hi hp, decStep_cubicPM1006 hf]
  rfl

/-- Settles O27: both commands run the one CONV step, which hands each register's integer value to the converter. -/
theorem convStepFillsTheScores : Obligations.ConvStepFillsTheScores := by
  intro s i hi hp
  rw [exec_conv hi hp]
  rfl

/-! ### From DEC to the end -/

/-- A Reading keeps nothing of the one before it: DEC writes `x[0]` to `x[14]` and CONV `x[15]` to `x[18]` (R182, R183,
R186). -/
theorem readingOf_congr (p : ProtocolKind) (m : Memory) (r r' : Reading) : readingOf p m r = readingOf p m r' := by
  cases p <;> rfl

/-- What DEC and CONV change together (R181, R186). -/
theorem convStep_decStep (s : State) :
    convStep (decStep s) =
      { s with reading := readingOf s.fproto s.frame s.reading, hasCounts := decide (s.fproto = .plantowerPM)
               rvalid := true, err := 0, done := true, phase := .idle } := by
  cases hf : s.fproto with
  | plantowerPM =>
    rw [decStep_plantowerPM hf, hf]
    rfl
  | cubicPM1006 =>
    rw [decStep_cubicPM1006 hf, hf]
    rfl

section
variable {s : State} {i : Instr}

/-- The DEC step of a busy core, the core alone moving. -/
theorem step_dec (hi : i = .decode ∨ i = .read) (hp : s.phase = .dec) (ha : s.agenda = [])
    (hc : decodeWord s.cmdl = .ok i) : step s = .next (decStep s) := by
  rw [step_busy (by simp [hp]) ha hc, exec_dec hi hp]

/-- The CONV step of a busy core, the core alone moving. -/
theorem step_conv (hi : i = .decode ∨ i = .read) (hp : s.phase = .conv) (ha : s.agenda = [])
    (hc : decodeWord s.cmdl = .ok i) : step s = .next (convStep s) := by
  rw [step_busy (by simp [hp]) ha hc, exec_conv hi hp]

/-- From DEC a command that decodes takes two more steps, and the core then waits. -/
theorem runSteps_dec {m : Nat} (hi : i = .decode ∨ i = .read) (hp : s.phase = .dec) (ha : s.agenda = [])
    (hc : decodeWord s.cmdl = .ok i) : runSteps (m + 2) s = .next (convStep (decStep s)) := by
  have conv : step (decStep s) = .next (convStep (decStep s)) := by
    rw [decStep_eq]
    exact step_conv hi rfl ha hc
  rw [runSteps_succ (step_dec hi hp ha hc), runSteps_succ conv, convStep_decStep]
  exact runSteps_idle rfl ha

end

/-! ### DECODE from issue to end -/

/-- DECODE at DEC: what its issue leaves of an idle core `s` whose FRAME is validated (R180). -/
def decodeDec (s : State) : State :=
  { s with agenda := [], cmdl := encodeWord .decode, done := false, err := 0, rvalid := false, phase := .dec }

/-- What DECODE leaves of an idle core `s` whose FRAME is validated (R180). -/
def decoded (s : State) : State :=
  { s with agenda := [], cmdl := encodeWord .decode, done := true, err := 0, rvalid := true
           reading := readingOf s.fproto s.frame s.reading, hasCounts := decide (s.fproto = .plantowerPM) }

section
variable {s : State}

/-- With FVALID = 1 a DECODE comes to DEC at its issue (60_exceptions.md R285). -/
theorem step_write_decode (hp : s.phase = .idle) (hv : s.fvalid = true) (ha : s.agenda = [.hostWrite 0x00 0x03]) :
    step s = .next (decodeDec s) := by
  have accepted : issueDecode { s with agenda := [] } = decodeDec s := if_pos hv
  rw [← accepted]
  exact (step_write_legal (i := .decode) hp ha rfl).trans (exec_idle hp)

theorem convStep_decStep_decodeDec (hp : s.phase = .idle) : convStep (decStep (decodeDec s)) = decoded s := by
  rw [convStep_decStep, decoded, hp]
  rfl

/-- A DECODE issued with a validated frame ends in the third step (R180). -/
theorem runSteps_decode (hp : s.phase = .idle) (hv : s.fvalid = true) (ha : s.agenda = [.hostWrite 0x00 0x03]) :
    runSteps 3 s = .next (decoded s) := by
  have ends := runSteps_dec (s := decodeDec s) (m := 0) (.inl rfl) rfl rfl (decodeWord_encodeWord .decode)
  rw [runSteps_succ (step_write_decode hp hv ha), ends, convStep_decStep_decodeDec hp]

end

/-- Decoding again what has been decoded changes nothing (R189). -/
theorem decoded_decoded (s : State) (acts : List AgentAction) :
    decoded { decoded s with agenda := acts } = decoded s :=
  congrArg (fun r => { decoded s with reading := r }) (readingOf_congr s.fproto s.frame (decoded s).reading s.reading)

/-- Settles O43: the end state of a DECODE meets its premises again, and is its own end state. -/
theorem decodeRunsToItsEnd : Obligations.DecodeRunsToItsEnd := by
  intro s hp hv t
  have again := runSteps_decode (s := { t with agenda := [.hostWrite 0x00 0x03] }) hp hv rfl
  exact ⟨runSteps_decode hp hv, again.trans (congrArg Host.Outcome.next (decoded_decoded s _))⟩

end Sys2Proof.Machine
end

section
/-! PROOFS. The converter (43_aqi.md): the value of OPERAND, the form of a breakpoint table and the band it selects, the
scores over all rationals, their order, their range and their integer form, and the AQI1 step. -/

namespace Sys2Proof.Machine

/-! ### The AQI1 step and the ROM -/

/-- Settles O28: each of the four commands runs the one AQI1 step, with its own pollutant and standard. -/
theorem aqi1StepWritesResult : Obligations.Aqi1StepWritesResult := by
  intro s hp ends
  exact ⟨exec_aqi1 rfl hp, exec_aqi1 rfl hp, exec_aqi1 rfl hp, exec_aqi1 rfl hp⟩

/-- Settles O32: the ROM's tables are the literals of R204 to R207. -/
theorem breakpointRomHoldsTheSpecsRows : Obligations.BreakpointRomHoldsTheSpecsRows :=
  ⟨rfl, rfl, rfl, rfl⟩

/-! ### The value of OPERAND (R201) -/

theorem exponent_eq (w : Word) : (w.extractLsb' 23 8).toNat = w.toNat / 2 ^ 23 % 256 := by
  rw [BitVec.extractLsb'_toNat, Nat.shiftRight_eq_div_pow]

theorem fraction_eq (w : Word) : (w.extractLsb' 0 23).toNat = w.toNat % 2 ^ 23 := by
  rw [BitVec.extractLsb'_toNat, Nat.shiftRight_zero]

/-- The sign bit is the quotient by `2 ^ 31`, which is 0 or 1. -/
theorem sign_cases (w : Word) : w.msb = false ∧ w.toNat / 2 ^ 31 = 0 ∨ w.msb = true ∧ w.toNat / 2 ^ 31 = 1 := by
  have := w.isLt
  rw [BitVec.msb_eq_decide, decide_eq_false_iff_not, decide_eq_true_eq]
  omega

theorem signFactor_eq_pow (w : Word) : signFactor w = (-1) ^ (w.toNat / 2 ^ 31) := by
  rcases sign_cases w with ⟨hs, hq⟩ | ⟨hs, hq⟩ <;> rw [signFactor, hs, hq] <;> norm_num

/-- Settles O30: the model's three slices of the pattern are the quotients and remainders of R201. -/
theorem operandIsBinary32 : Obligations.OperandIsBinary32 := by
  intro w sg e m
  have infinity : (if w.msb then Conc.negInf else .posInf) = if sg = 0 then .posInf else .negInf := by
    rcases sign_cases w with ⟨hs, hq⟩ | ⟨hs, hq⟩ <;> simp only [sg, hs, hq] <;> rfl
  simp only [operandValue, exponent_eq, fraction_eq, signFactor_eq_pow, infinity, e, m, sg]

/-! ### Breakpoint tables (R203) -/

/-- Band `a` stands below band `b`: it ends where `b` begins or before, with a smaller score. -/
def Below (a b : Config.Band) : Prop := a.ch10 ≤ b.cl10 ∧ a.ah < b.al

theorem band_wellFormed_iff {b : Config.Band} : b.wellFormed = true ↔ b.cl10 < b.ch10 ∧ b.al < b.ah := by
  simp [Config.Band.wellFormed]

theorem bandsJoin_cons_cons {a b : Config.Band} {t : List Config.Band} :
    Config.bandsJoin (a :: b :: t) = true ↔
      a.wellFormed = true ∧ a.ch10 = b.cl10 ∧ a.ah < b.al ∧ Config.bandsJoin (b :: t) = true := by
  simp [Config.bandsJoin, and_assoc]

theorem wellFormed_of_bandsJoin {t : List Config.Band} (h : Config.bandsJoin t = true) :
    ∀ b ∈ t, b.cl10 < b.ch10 ∧ b.al < b.ah := by
  induction t with
  | nil => simp
  | cons a t ih =>
    cases t with
    | nil => exact List.forall_mem_singleton.2 (band_wellFormed_iff.1 h)
    | cons b t =>
      obtain ⟨ha, -, -, ht⟩ := bandsJoin_cons_cons.1 h
      exact List.forall_mem_cons.2 ⟨band_wellFormed_iff.1 ha, ih ht⟩

/-- Joined bands stand in rising order, not only each below the next. -/
theorem pairwise_below_of_bandsJoin {t : List Config.Band} (h : Config.bandsJoin t = true) : t.Pairwise Below := by
  induction t with
  | nil => exact .nil
  | cons a t ih =>
    cases t with
    | nil => exact List.pairwise_singleton _ _
    | cons b t =>
      obtain ⟨-, hjoin, hrise, ht⟩ := bandsJoin_cons_cons.1 h
      have hb := wellFormed_of_bandsJoin ht b List.mem_cons_self
      have below_rest := (List.pairwise_cons.1 (ih ht)).1
      refine List.pairwise_cons.2 ⟨List.forall_mem_cons.2 ⟨⟨hjoin.le, hrise⟩, fun c hc => ?_⟩, ih ht⟩
      obtain ⟨hconc, hscore⟩ := below_rest c hc
      exact ⟨by omega, by omega⟩

/-- Of two bands of a joined table one stands below the other, or they are the same. -/
theorem eq_or_below_or_below {t : List Config.Band} (h : Config.bandsJoin t = true) {a b : Config.Band} (ha : a ∈ t)
    (hb : b ∈ t) : a = b ∨ Below a b ∨ Below b a := by
  have symm : Std.Symm fun x y => Below x y ∨ Below y x := ⟨fun _ _ => Or.symm⟩
  have either : t.Pairwise fun x y => Below x y ∨ Below y x := (pairwise_below_of_bandsJoin h).imp Or.inl
  exact or_iff_not_imp_left.2 (either.forall ha hb)

/-- Joined bands leave no gap: from where the first begins up to the end of any, each concentration is in one. -/
theorem exists_band_of_bandsJoin {a b : Config.Band} {t : List Config.Band} {c : ℚ} (h : Config.bandsJoin (a :: t) = true)
    (hl : concLow a ≤ c) (hb : b ∈ a :: t) (hh : c < concHigh b) :
    ∃ x ∈ a :: t, concLow x ≤ c ∧ c < concHigh x := by
  induction t generalizing a with
  | nil => exact ⟨b, hb, by rwa [List.mem_singleton.1 hb], hh⟩
  | cons a' t ih =>
    by_cases hc : c < concHigh a
    · exact ⟨a, List.mem_cons_self, hl, hc⟩
    · obtain ⟨-, hjoin, -, ht⟩ := bandsJoin_cons_cons.1 h
      have next_low : concLow a' = concHigh a := by rw [concLow, concHigh, hjoin]
      have hb' : b ∈ a' :: t := (List.mem_cons.1 hb).resolve_left fun e => hc (e ▸ hh)
      obtain ⟨x, hx, hin⟩ := ih ht (by rw [next_low]; exact not_lt.1 hc) hb'
      exact ⟨x, List.mem_cons_of_mem _ hx, hin⟩

theorem tableWellFormed_iff {t : List Config.Band} :
    Config.tableWellFormed t = true ↔
      t.length = 7 ∧ (∃ a rest, t = a :: rest ∧ a.cl10 = 0) ∧ Config.bandsJoin t = true := by
  cases t <;> simp [Config.tableWellFormed, and_assoc]

theorem bandsJoin_aqiTable (p : Pollutant) (d : Standard) :
    Config.bandsJoin (Config.aqiTable (tableNumber p d)) = true :=
  (tableWellFormed_iff.1 (aqiTable_wellFormed ⟨_, tableNumber_lt p d⟩)).2.2

/-! ### The selected band (R209) -/

theorem concLow_nonneg (b : Config.Band) : 0 ≤ concLow b := by unfold concLow; positivity

theorem concHigh_le_concLow {a b : Config.Band} (h : Below a b) : concHigh a ≤ concLow b := by
  have : (a.ch10 : ℚ) ≤ b.cl10 := by exact_mod_cast h.1
  unfold concHigh concLow
  linarith

/-- A concentration in a band is in no band below it, but for the join of two closed bands. -/
theorem not_inBand_of_below {d : Standard} {c : ℚ} {a b : Config.Band} (ha : a.cl10 < a.ch10) (hab : Below a b)
    (hb : inBand d c b = true) (hjoin : d = .us ∨ b.cl10 = 0 ∨ concLow b < c) : inBand d c a = false := by
  have ends := concHigh_le_concLow hab
  refine Bool.eq_false_iff.2 fun hin => ?_
  rcases hjoin with rfl | h0 | hlow
  · exact absurd (inBand_us.1 hb).1 (not_le.2 ((inBand_us.1 hin).2.trans_le ends))
  · have := hab.1
    omega
  · exact absurd (mem_of_inBand hin).2 (not_le.2 (ends.trans_lt hlow))

/-- The first band that matches in a joined table; in a China table a join is the lower band's. -/
theorem find?_inBand {t : List Config.Band} {d : Standard} {c : ℚ} {b : Config.Band} (ht : Config.bandsJoin t = true)
    (hm : b ∈ t) (hb : inBand d c b = true) (hjoin : d = .us ∨ b.cl10 = 0 ∨ concLow b < c) :
    t.find? (inBand d c) = some b := by
  obtain ⟨lower, upper, rfl⟩ := List.append_of_mem hm
  refine List.find?_eq_some_iff_append.2 ⟨hb, lower, upper, rfl, fun a ha => ?_⟩
  have wide := (wellFormed_of_bandsJoin ht a (List.mem_append_left _ ha)).1
  have below := (List.pairwise_append.1 (pairwise_below_of_bandsJoin ht)).2.2 a ha b List.mem_cons_self
  rw [not_inBand_of_below wide below hb hjoin, Bool.not_false]

/-! ### The score of a band (R210, R211) -/

theorem toNat_rnd {x : ℚ} (h : 0 ≤ x) : (rnd x).toNat = ⌊x + 1 / 2⌋₊ := by
  rw [rnd_of_nonneg h, Int.floor_toNat]

theorem le_toNat_rnd {n : ℕ} {x : ℚ} (h : (n : ℚ) ≤ x) : n ≤ (rnd x).toNat := by
  rw [toNat_rnd (n.cast_nonneg.trans h)]
  exact Nat.le_floor (by linarith)

theorem toNat_rnd_mono {x y : ℚ} (hx : 0 ≤ x) (h : x ≤ y) : (rnd x).toNat ≤ (rnd y).toNat := by
  rw [toNat_rnd hx, toNat_rnd (hx.trans h)]
  exact Nat.floor_mono (by linarith)

theorem concLow_lt_concHigh {b : Config.Band} (h : b.cl10 < b.ch10) : concLow b < concHigh b := by
  have : (b.cl10 : ℚ) < b.ch10 := by exact_mod_cast h
  unfold concLow concHigh
  linarith

theorem lin_mono {c e : ℚ} {b : Config.Band} (hc : b.cl10 < b.ch10) (ha : b.al < b.ah) (h : c ≤ e) :
    lin c b ≤ lin e b := by
  have width : 0 < concHigh b - concLow b := sub_pos.2 (concLow_lt_concHigh hc)
  have rise : (0 : ℚ) ≤ b.ah - b.al := by
    have : (b.al : ℚ) < b.ah := by exact_mod_cast ha
    linarith
  unfold lin
  gcongr

/-! ### The scores over all rationals (R204 to R212) -/

theorem aqi_finite (p : Pollutant) (d : Standard) (c : ℚ) :
    aqi p d (.finite c) = scoreIn (Config.aqiTable (tableNumber p d)) d (adjusted p d c) := rfl

theorem adjusted_eq_ite (p : Pollutant) (d : Standard) (c : ℚ) :
    adjusted p d c = if p = .pm25 ∧ d = .us then (⌊10 * c⌋ : ℚ) / 10 else c := by
  cases p <;> cases d <;> rfl

theorem adjusted_neg {c : ℚ} (p : Pollutant) (d : Standard) (h : c < 0) : adjusted p d c < 0 := by
  unfold adjusted
  split
  · exact (truncTenth_neg_iff c).2 h
  · exact h

theorem aqi_of_neg {c : ℚ} (p : Pollutant) (d : Standard) (h : c < 0) : aqi p d (.finite c) = 0 :=
  if_pos (adjusted_neg p d h)

theorem scoreIn_of_find? {t : List Config.Band} {d : Standard} {c : ℚ} {b : Config.Band}
    (h : t.find? (inBand d c) = some b) : scoreIn t d c = (rnd (lin c b)).toNat := by
  have hc : 0 ≤ c := (concLow_nonneg b).trans (mem_of_inBand (List.find?_some h)).1
  rw [scoreIn, if_neg (not_lt.2 hc), h]

/-- In a band the score is the interpolation rounded half up. -/
theorem aqi_of_inBand {p : Pollutant} {d : Standard} {c : ℚ} {b : Config.Band}
    (hm : b ∈ Config.aqiTable (tableNumber p d)) (hb : inBand d (adjusted p d c) b = true)
    (hjoin : d = .us ∨ b.cl10 = 0 ∨ concLow b < adjusted p d c) :
    (aqi p d (.finite c) : ℤ) = ⌊lin (adjusted p d c) b + 1 / 2⌋ := by
  have ht := bandsJoin_aqiTable p d
  obtain ⟨hc, ha⟩ := wellFormed_of_bandsJoin ht b hm
  have nonneg : 0 ≤ lin (adjusted p d c) b := b.al.cast_nonneg.trans (lin_mem hc ha (mem_of_inBand hb)).1
  rw [aqi_finite, scoreIn_of_find? (find?_inBand ht hm hb hjoin), toNat_rnd nonneg,
    Int.natCast_floor_eq_floor (by linarith)]

/-- A band as R204 to R207 write it: (conc_low, conc_high, aqi_low, aqi_high), concentrations in µg/m³. -/
def row (b : Config.Band) : ℚ × ℚ × ℚ × ℚ := (concLow b, concHigh b, b.al, b.ah)

theorem exists_band_of_row {t : List Config.Band} {lo hi al ah : ℚ} (h : (lo, hi, al, ah) ∈ t.map row) :
    ∃ b ∈ t, concLow b = lo ∧ concHigh b = hi ∧ (b.al : ℚ) = al ∧ (b.ah : ℚ) = ah := by
  simpa [row] using h

/-- Past the top of every band, which no half-open band holds itself, the score is OUT_OF_RANGE. -/
theorem aqi_past_top {p : Pollutant} {d : Standard} {c top : ℚ}
    (htop : 0 ≤ top ∧ ∀ r ∈ (Config.aqiTable (tableNumber p d)).map row, r.2.1 ≤ top)
    (hc : d = .us ∧ top ≤ adjusted p d c ∨ top < adjusted p d c) : aqi p d (.finite c) = 99999 := by
  have past : top ≤ adjusted p d c := hc.elim And.right le_of_lt
  rw [aqi_finite]
  rcases scoreIn_cases (Config.aqiTable (tableNumber p d)) d (adjusted p d c)
    with ⟨hneg, -⟩ | ⟨b, hb, -, hin, -⟩ | ⟨-, -, score⟩
  · exact absurd (htop.1.trans past) (not_le.2 hneg)
  · have below_top : concHigh b ≤ top := htop.2 (row b) (List.mem_map_of_mem hb)
    rcases hc with ⟨rfl, -⟩ | hc
    · exact absurd (below_top.trans past) (not_le.2 (inBand_us.1 hin).2)
    · exact absurd (below_top.trans_lt hc) (not_lt.2 (mem_of_inBand hin).2)
  · exact score

/-- Settles O33: a half-open band excludes all others, so membership alone selects it. -/
theorem usScores : Obligations.UsScores := by
  intro p c c' rows top
  have hadj : c' = adjusted p .us c := by cases p <;> rfl
  have hrows : rows = (Config.aqiTable (tableNumber p .us)).map row := by
    cases p
    case pm25 =>
      change _ = Config.tablePm25Us.map row
      norm_num [rows, Config.tablePm25Us, row, concLow, concHigh]
    case pm10 =>
      change _ = Config.tablePm10Us.map row
      norm_num [rows, Config.tablePm10Us, row, concLow, concHigh]
  have htop : 0 ≤ top ∧ ∀ r ∈ rows, r.2.1 ≤ top := by cases p <;> norm_num [rows, top]
  clear_value c' rows top
  subst hadj hrows
  refine ⟨aqi_of_neg p .us, fun lo hi al ah hr hlo hhi => ?_, fun hc => aqi_past_top htop (.inl ⟨rfl, hc⟩)⟩
  obtain ⟨b, hb, rfl, rfl, rfl, rfl⟩ := exists_band_of_row hr
  exact aqi_of_inBand hb (inBand_us.2 ⟨hlo, hhi⟩) (.inl rfl)

/-- Settles O34: a closed band's lower end belongs to the band below it, which is the first to match; band 1 has none
below it. -/
theorem chinaScores : Obligations.ChinaScores := by
  intro p c rows top
  have hadj : adjusted p .china c = c := by cases p <;> rfl
  have hrows : rows = (Config.aqiTable (tableNumber p .china)).map row := by
    cases p
    case pm25 =>
      change _ = Config.tablePm25Cn.map row
      norm_num [rows, Config.tablePm25Cn, row, concLow, concHigh]
    case pm10 =>
      change _ = Config.tablePm10Cn.map row
      norm_num [rows, Config.tablePm10Cn, row, concLow, concHigh]
  have htop : 0 ≤ top ∧ ∀ r ∈ rows, r.2.1 ≤ top := by cases p <;> norm_num [rows, top]
  clear_value rows top
  subst hrows
  refine ⟨aqi_of_neg p .china, fun lo hi al ah hr hlo hhi => ?_, fun hc => aqi_past_top htop (.inr (by rwa [hadj]))⟩
  obtain ⟨b, hb, rfl, rfl, rfl, rfl⟩ := exists_band_of_row hr
  have hin : inBand .china c b = true := inBand_china.2 ⟨hlo.elim le_of_lt fun h => (h.1.trans h.2.symm).le, hhi⟩
  have hjoin : b.cl10 = 0 ∨ concLow b < c := hlo.symm.imp_left fun h => by simpa [concLow] using h.1
  rw [aqi_of_inBand hb (by rwa [hadj]) (.inr (by rwa [hadj])), hadj]
  rfl

/-! ### Order (R220) -/

/-- Band scores are in the order of the bands: inside one band the interpolation rises, and a band's scores do not exceed
its `aqi_high`, from which the next band's `aqi_low` is above. -/
theorem rnd_lin_mono {t : List Config.Band} (ht : Config.bandsJoin t = true) {d : Standard} {c e : ℚ}
    {a b : Config.Band} (ha : a ∈ t) (hb : b ∈ t) (hca : inBand d c a = true) (heb : inBand d e b = true) (h : c < e) :
    (rnd (lin c a)).toNat ≤ (rnd (lin e b)).toNat := by
  obtain ⟨wide_a, rise_a⟩ := wellFormed_of_bandsJoin ht a ha
  obtain ⟨wide_b, rise_b⟩ := wellFormed_of_bandsJoin ht b hb
  obtain ⟨low_a, high_a⟩ := lin_mem wide_a rise_a (mem_of_inBand hca)
  obtain ⟨low_b, -⟩ := lin_mem wide_b rise_b (mem_of_inBand heb)
  have nonneg : 0 ≤ lin c a := a.al.cast_nonneg.trans low_a
  rcases eq_or_below_or_below ht ha hb with rfl | hab | hba
  · exact toNat_rnd_mono nonneg (lin_mono wide_a rise_a h.le)
  · calc (rnd (lin c a)).toNat ≤ a.ah := rnd_toNat_le nonneg high_a
      _ ≤ b.al := hab.2.le
      _ ≤ (rnd (lin e b)).toNat := le_toNat_rnd low_b
  · have : e ≤ c := (mem_of_inBand heb).2.trans ((concHigh_le_concLow hba).trans (mem_of_inBand hca).1)
    exact absurd h (not_lt.2 this)

/-- A half-open band's concentrations match it under either standard. -/
theorem inBand_of_halfOpen {c : ℚ} {b : Config.Band} (d : Standard) (h : concLow b ≤ c ∧ c < concHigh b) :
    inBand d c b = true := by
  cases d
  case us => exact inBand_us.2 h
  case china => exact inBand_china.2 ⟨h.1, h.2.le⟩

/-- A later concentration scores no less: two bands score in their order, a band never exceeds OUT_OF_RANGE, and what no
band holds is past all of them, since they leave no gap from 0 on. -/
theorem scoreIn_mono {t : List Config.Band} (ht : Config.tableWellFormed t = true) (hs : ∀ b ∈ t, b.ah ≤ 99999)
    (d : Standard) {c e : ℚ} (h : c ≤ e) : scoreIn t d c ≤ scoreIn t d e := by
  obtain ⟨-, ⟨first, rest, rfl, hfirst⟩, hj⟩ := tableWellFormed_iff.1 ht
  obtain rfl | hlt := h.eq_or_lt
  · exact le_rfl
  rcases scoreIn_cases (first :: rest) d c with ⟨-, sc⟩ | ⟨a, ha, hc0, hca, sc⟩ | ⟨hc0, hcno, sc⟩ <;> rw [sc]
  · exact Nat.zero_le _
  · rcases scoreIn_cases (first :: rest) d e with ⟨he, -⟩ | ⟨b, hb, -, heb, se⟩ | ⟨-, -, se⟩
    · exact absurd he (not_lt.2 (hc0.trans h))
    · rw [se]
      exact rnd_lin_mono hj ha hb hca heb hlt
    · obtain ⟨wide, rise⟩ := wellFormed_of_bandsJoin hj a ha
      obtain ⟨low, high⟩ := lin_mem wide rise (mem_of_inBand hca)
      rw [se]
      exact (rnd_toNat_le (a.al.cast_nonneg.trans low) high).trans (hs a ha)
  · rcases scoreIn_cases (first :: rest) d e with ⟨he, -⟩ | ⟨b, hb, -, heb, -⟩ | ⟨-, -, se⟩
    · exact absurd he (not_lt.2 (hc0.trans h))
    · have from_zero : concLow first ≤ c := by simpa [concLow, hfirst] using hc0
      obtain ⟨x, hx, hin⟩ := exists_band_of_bandsJoin hj from_zero hb (hlt.trans_le (mem_of_inBand heb).2)
      exact absurd (inBand_of_halfOpen d hin) (Bool.eq_false_iff.1 (hcno x hx))
    · exact se.ge

theorem aqiWith_mono {rom : Nat → List Config.Band} {p : Pollutant} {d : Standard}
    (h : Config.tableWellFormed (rom (tableNumber p d)) = true ∧ ∀ b ∈ rom (tableNumber p d), b.ah ≤ 99999)
    {c e : ℚ} (hce : c ≤ e) : aqiWith rom p d (.finite c) ≤ aqiWith rom p d (.finite e) :=
  scoreIn_mono h.1 h.2 d (adjusted_mono p d hce)

/-- Settles O35: truncation is non-decreasing, and so is the score in a well-formed table. -/
theorem scoresAreMonotone : Obligations.ScoresAreMonotone := by
  refine ⟨fun rom hrom p d c e h => aqiWith_mono (hrom _ (tableNumber_lt p d)) h, fun p d c e h => ?_⟩
  have ht := tableNumber_lt p d
  refine aqiWith_mono ⟨aqiTable_wellFormed ⟨_, ht⟩, fun b hb => ?_⟩ h
  obtain ⟨-, -, h500⟩ := aqiTable_bands _ ht b hb
  omega

/-! ### Whole tenths (R222) -/

/-- The band test of R222, on a number of tenths. -/
def tenthsInBand (d : Standard) (n : Nat) (b : Config.Band) : Bool :=
  match d with
  | .us => decide (b.cl10 ≤ n) && decide (n < b.ch10)
  | .china => decide (b.cl10 ≤ n) && decide (n ≤ b.ch10)

theorem inBand_tenths (d : Standard) (n : Nat) : inBand d ((n : ℚ) / 10) = tenthsInBand d n := by
  funext b
  have ten : (0 : ℚ) < 10 := by norm_num
  cases d <;>
    simp [inBand, tenthsInBand, concLow, concHigh, div_le_div_iff_of_pos_right ten, div_lt_div_iff_of_pos_right ten]

/-- R222's integer division. -/
def tenthsScore (n : Nat) (b : Config.Band) : Nat :=
  (2 * (n - b.cl10) * (b.ah - b.al) + (2 * b.al + 1) * (b.ch10 - b.cl10)) / (2 * (b.ch10 - b.cl10))

/-- Interpolation plus a half, with numerator and denominator multiplied by `2 * (ch10 - cl10)`. -/
theorem floor_lin_tenths {n : Nat} {b : Config.Band} (hn : b.cl10 ≤ n) (hc : b.cl10 < b.ch10) (ha : b.al < b.ah) :
    ⌊lin ((n : ℚ) / 10) b + 1 / 2⌋₊ = tenthsScore n b := by
  have width : (b.ch10 : ℚ) - b.cl10 ≠ 0 := sub_ne_zero.2 (by exact_mod_cast hc.ne')
  have quotient : lin ((n : ℚ) / 10) b + 1 / 2
      = ((2 * (n - b.cl10) * (b.ah - b.al) + (2 * b.al + 1) * (b.ch10 - b.cl10) : ℕ) : ℚ)
        / ((2 * (b.ch10 - b.cl10) : ℕ) : ℚ) := by
    push_cast [Nat.cast_sub hn, Nat.cast_sub hc.le, Nat.cast_sub ha.le]
    have scale : (b.ch10 : ℚ) / 10 - b.cl10 / 10 ≠ 0 := by
      rw [← sub_div]
      exact div_ne_zero width (by norm_num)
    unfold lin concLow concHigh
    field_simp
    ring
  rw [quotient, Nat.floor_div_eq_div, tenthsScore]

/-- Settles O37: the band tests on tenths are the band tests, and the rounded interpolation is the integer division. -/
theorem integerFormForTenths : Obligations.IntegerFormForTenths := by
  intro p d c n b hadj hfind
  rw [← adjusted_eq_ite] at hadj
  have selected : (Config.aqiTable (tableNumber p d)).find? (inBand d ((n : ℚ) / 10)) = some b := by
    rw [inBand_tenths]
    exact hfind
  obtain ⟨hc, ha⟩ := wellFormed_of_bandsJoin (bandsJoin_aqiTable p d) b (List.mem_of_find?_eq_some selected)
  have between := mem_of_inBand (List.find?_some selected)
  have hn : b.cl10 ≤ n := by
    have : (b.cl10 : ℚ) ≤ n := by
      have := between.1
      unfold concLow at this
      linarith
    exact_mod_cast this
  rw [aqi_finite, hadj, scoreIn_of_find? selected,
    toNat_rnd (b.al.cast_nonneg.trans (lin_mem hc ha between).1)]
  exact floor_lin_tenths hn hc ha

theorem adjusted_tenths (p : Pollutant) (d : Standard) (n : Nat) : adjusted p d ((n : ℚ) / 10) = (n : ℚ) / 10 := by
  have : (10 : ℚ) * ((n : ℚ) / 10) = (n : ℤ) := by push_cast; ring
  rw [adjusted_eq_ite, this, Int.floor_intCast, Int.cast_natCast, ite_self]

/-- The score of a whole number of tenths, by evaluation. -/
theorem aqi_tenths {p : Pollutant} {d : Standard} {n : Nat} {b : Config.Band}
    (h : (Config.aqiTable (tableNumber p d)).find? (tenthsInBand d n) = some b) :
    aqi p d (.finite ((n : ℚ) / 10)) = tenthsScore n b :=
  integerFormForTenths p d _ n b (by rw [← adjusted_eq_ite, adjusted_tenths]) h

/-! ### The result set (R221) -/

/-- Settles O36: 500 is the rounded score a tenth below the top of a US table and the score at the top of a China table;
1000 is above every table. -/
theorem scoresLieInTheResultSet : Obligations.ScoresLieInTheResultSet := by
  refine ⟨aqi_range, fun p d => ⟨?_, 1000, ?_⟩⟩
  · cases p <;> cases d
    case pm25.us => exact ⟨_, aqi_tenths (n := 5004) (b := ⟨3505, 5005, 401, 500⟩) rfl⟩
    case pm25.china => exact ⟨_, aqi_tenths (n := 5000) (b := ⟨3500, 5000, 401, 500⟩) rfl⟩
    case pm10.us => exact ⟨_, aqi_tenths (n := 6049) (b := ⟨5050, 6050, 401, 500⟩) rfl⟩
    case pm10.china => exact ⟨_, aqi_tenths (n := 6000) (b := ⟨5000, 6000, 401, 500⟩) rfl⟩
  · cases d
    case us => exact (usScores p 1000).2.2 (by cases p <;> norm_num)
    case china => exact (chinaScores p 1000).2.2 (by cases p <;> norm_num)

/-! ### Operands without a finite value, zeros and subnormals (R213) -/

/-- A tenth scores 0 in every table, and so does everything below it. -/
theorem aqi_of_le_tenth (p : Pollutant) (d : Standard) {c : ℚ} (h : c ≤ 1 / 10) : aqi p d (.finite c) = 0 := by
  have tenth : aqi p d (.finite (((1 : ℕ) : ℚ) / 10)) = 0 := by
    cases p <;> cases d
    case pm25.us => exact aqi_tenths (b := ⟨0, 121, 0, 50⟩) rfl
    case pm25.china => exact aqi_tenths (b := ⟨0, 350, 0, 50⟩) rfl
    case pm10.us => exact aqi_tenths (b := ⟨0, 550, 0, 50⟩) rfl
    case pm10.china => exact aqi_tenths (b := ⟨0, 500, 0, 50⟩) rfl
  exact Nat.le_zero.1 (tenth ▸ scoresAreMonotone.2 p d c _ (by exact_mod_cast h))

/-- A subnormal of either sign is below a tenth. -/
theorem subnormal_le_tenth (sg : ℕ) {m : ℕ} (h : m < 2 ^ 23) :
    (-1 : ℚ) ^ sg * (m : ℚ) * (2 : ℚ) ^ (-149 : ℤ) ≤ 1 / 10 := by
  have hm : (m : ℚ) ≤ 2 ^ 23 := by exact_mod_cast h.le
  calc (-1 : ℚ) ^ sg * (m : ℚ) * (2 : ℚ) ^ (-149 : ℤ)
      ≤ |(-1 : ℚ) ^ sg * (m : ℚ) * (2 : ℚ) ^ (-149 : ℤ)| := le_abs_self _
    _ = (m : ℚ) * (2 : ℚ) ^ (-149 : ℤ) := by simp [abs_mul, abs_pow]
    _ ≤ 2 ^ 23 * (2 : ℚ) ^ (-149 : ℤ) := by gcongr
    _ ≤ 1 / 10 := by norm_num

/-- Settles O31: the values R201 gives these patterns, each with its score. -/
theorem specialOperands : Obligations.SpecialOperands := by
  intro p d w
  refine ⟨?_, ?_, fun he hm => ?_, fun he => ?_⟩
  · rintro rfl
    rw [operandIsBinary32]
    exact aqi_negInf p d
  · rintro rfl
    rw [operandIsBinary32]
    exact aqi_posInf p d
  · rw [operandIsBinary32 w, if_pos he, if_pos hm]
    exact aqi_nan p d
  · rw [operandIsBinary32 w, if_neg (by omega), if_pos he]
    exact aqi_of_le_tenth p d (subnormal_le_tenth _ (Nat.mod_lt _ (by norm_num)))

end Sys2Proof.Machine
end

section
/-! PROOFS. READ (44_read.md): the marker the synchronizer matched is the byte the header check finds first, whatever
the other agents do meanwhile; and READ from issue to end. -/

namespace Sys2Proof.Machine

/-! ### A machine of which `MarkerKept` asks nothing -/

/-- Outside AVAIL to CONV there is no marker to keep. -/
theorem markerKept_of_phase {t : State} (hp : t.phase = .idle ∨ t.phase = .scan) : MarkerKept t := by
  constructor <;> rcases hp with hp | hp <;> simp [hp]

/-- Nor is there while CMDL holds another command than READ. -/
theorem markerKept_of_not_read {t : State} (hc : decodeWord t.cmdl ≠ .ok .read) : MarkerKept t :=
  ⟨fun hr => absurd hr hc, fun hr => absurd hr hc, fun hr => absurd hr hc⟩

/-! ### Every step keeps the marker -/

/-- Bytes that arrive at the tail do not take the head away (R73). -/
theorem srcPeek_of_isPrefix {q r : List Byte} {b : Byte} (h : q <+: r) (hb : srcPeek q = some b) :
    srcPeek r = some b := by
  obtain ⟨tail, rfl⟩ := h
  rw [srcPeek_eq_some.1 hb]
  rfl

/-- XFER moves the head of the byte source into `FRAME[0]` (R153). -/
theorem read_frameOf_zero {m : Memory} {vp : ProtocolKind} {q : List Byte} {b : Byte} (hl : frameLength vp ≤ q.length)
    (h : Memory.wf m = true) (hb : srcPeek q = some b) : Memory.read (frameOf m (frameLength vp) q) 0 = b := by
  rw [read_frameOf hl h, srcPeek_eq_some.1 hb]
  cases vp <;> rfl

/-- A step of the core leaves CMDL (10_state.md R45). -/
theorem CoreStep.cmdl {i : Instr} {s t : State} (h : CoreStep i s t) : t.cmdl = s.cmdl := by
  cases h with
  | decoded => rw [decStep_eq, goto_cmdl]
  | noStartByte | starved | synced | marked | discarded | available | incomplete | transferred | shortRead | badHeader
  | badChecksum | validated | checked | converted | scored => rfl

/-- The steps of a READ hand the marker on: from SCAN's match to the head of the byte source, by XFER to `FRAME[0]`, and
by CHECK to FPROTO (R241, R246). -/
theorem markerKept_coreStep_read {s t : State} (h : Inv s) (hm : MarkerKept s) (hc : decodeWord s.cmdl = .ok .read)
    (ht : CoreStep .read s t) : MarkerKept t := by
  cases ht with
  | noStartByte | starved | synced | incomplete | shortRead | badHeader | badChecksum | validated | converted
  | scored => exact markerKept_of_phase (.inl rfl)
  | discarded hp => exact markerKept_of_phase (.inr hp)
  | marked _ _ _ hb hp => exact ⟨fun _ _ => ⟨rfl, _, hb, hp⟩, nofun, nofun⟩
  | available hp => exact ⟨fun _ _ => hm.at_head hc (.inl hp), nofun, nofun⟩
  | transferred hp _ hl =>
    obtain ⟨valid, b, head, marker⟩ := hm.at_head hc (.inr hp)
    refine ⟨nofun, fun _ _ => ⟨valid, ?_⟩, nofun⟩
    rw [goto_frame, read_frameOf_zero hl h.frame_canonical head]
    exact marker
  | checked hp =>
    obtain ⟨valid, -⟩ := hm.in_frame hc hp
    exact ⟨nofun, nofun, fun _ _ => ⟨valid, rfl⟩⟩
  | decoded hp =>
    rw [decStep_eq]
    exact ⟨nofun, nofun, fun _ _ => hm.decoded hc (.inl hp)⟩

theorem markerKept_coreStep {i : Instr} {s t : State} (h : Inv s) (hm : MarkerKept s) (hc : decodeWord s.cmdl = .ok i)
    (ht : CoreStep i s t) : MarkerKept t := by
  by_cases hi : i = .read
  · subst hi
    exact markerKept_coreStep_read h hm hc ht
  · refine markerKept_of_not_read ?_
    rw [ht.cmdl, hc]
    exact fun e => hi (Except.ok.inj e)

/-- The issue of a READ leaves the core in SCAN, any other leaves another word in CMDL (60_exceptions.md R285). -/
theorem markerKept_issued (i : Instr) (s : State) : MarkerKept (issued i s) := by
  by_cases hi : i = .read
  · subst hi
    exact markerKept_of_phase (.inr rfl)
  · obtain ⟨_, _, _, _, _, _, _, e, -⟩ := issued_writes i s
    refine markerKept_of_not_read ?_
    rw [e, decodeWord_encodeWord]
    exact fun e => hi (Except.ok.inj e)

/-- `MarkerKept` reads none of the other agents' fields but the byte source, which may only grow, and not OPERAND. -/
theorem markerKept_outside {s : State} (hm : MarkerKept s) {q : List Byte} (hq : s.source <+: q)
    {rest : List AgentAction} {d : Option Nat} {v w : Word} {n : Nat} :
    MarkerKept { s with operand := w, agenda := rest, source := q, readDraw := d, readData := v, drawCount := n } where
  at_head hc hp := by
    obtain ⟨valid, b, head, marker⟩ := hm.at_head hc hp
    exact ⟨valid, b, srcPeek_of_isPrefix hq head, marker⟩
  in_frame := hm.in_frame
  decoded := hm.decoded

theorem markerKept_step {s t : State} (h : Inv s) (hm : MarkerKept s) (hst : step s = .next t) : MarkerKept t := by
  cases stepBy_of_step hst with
  | @core i rest _ _ hc _ ht =>
    exact markerKept_coreStep (inv_agenda h (rest := rest)) (markerKept_outside hm ⟨[], List.append_nil _⟩) hc ht
  | issue => exact markerKept_issued _ _
  | illegal => exact markerKept_of_phase (.inl rfl)
  | operand => exact markerKept_outside hm ⟨[], List.append_nil _⟩
  | outside _ _ hq => exact markerKept_outside hm hq
  | reset => exact markerKept_of_phase (.inl rfl)

/-! ### Which bytes a header can fail in once its marker is in place (R155, R156) -/

theorem headerOk_plantowerPM_iff_of_marker {m : Memory} (hm : markerOf (Memory.read m 0) = some .plantowerPM) :
    headerOk .plantowerPM m = true ↔ Memory.read m 1 = 0x4D := by
  have first : Memory.read m 0 = 0x42 := by simpa using markerOf_eq_some.1 hm
  rw [(headerCheckComparesTheHeaderBytes m).1, and_iff_right first]

theorem headerOk_cubicPM1006_iff_of_marker {m : Memory} (hm : markerOf (Memory.read m 0) = some .cubicPM1006) :
    headerOk .cubicPM1006 m = true ↔ Memory.read m 1 = 0x11 ∧ Memory.read m 2 = 0x0B := by
  have first : Memory.read m 0 = 0x16 := by simpa using markerOf_eq_some.1 hm
  rw [(headerCheckComparesTheHeaderBytes m).2, and_iff_right first]

/-- Settles O50: every step keeps the marker, and at CHECK it is the header's first byte. -/
theorem theMarkerIsKeptThroughARead : Obligations.TheMarkerIsKeptThroughARead := by
  refine ⟨fun s t h hm hst => markerKept_step h hm hst, fun s hm hc hp hh => ?_⟩
  obtain ⟨-, marker⟩ := hm.in_frame hc hp
  constructor <;> intro hproto <;> rw [hproto] at marker hh
  · exact fun second => by simp [(headerOk_plantowerPM_iff_of_marker marker).2 second] at hh
  · rw [ne_eq, ne_eq, ← not_and_or]
    exact fun later => by simp [(headerOk_cubicPM1006_iff_of_marker marker).2 later] at hh

/-! ### READ from issue to end -/

/-- READ in SCAN after `j` discards, issued by an idle core `s` (R240, R131). -/
def readScan (s : State) (j : Nat) : State :=
  { s with agenda := [], cmdl := encodeWord .read, done := false, err := 0, pvalid := false, fvalid := false
           rvalid := false, dcnt := BitVec.ofNat 6 j, source := s.source.drop j, phase := .scan }

/-- READ at CHECK: what XFER leaves of it, with a whole `p` frame in the byte source and no draw pending,
so that none is spent (R153). -/
def readCheck (s : State) (p : ProtocolKind) : State :=
  let t := readAvail s p
  { t with frame := frameOf s.frame (frameLength p) t.source, source := t.source.drop (frameLength p)
           phase := .check }

section
variable {s t : State}

/-- A READ whose SCAN step after `j` discards returns the core to idle has ended there. -/
theorem runSteps_read_scan {j : Nat} (hp : s.phase = .idle) (ha : s.agenda = [.hostWrite 0x00 0x05]) (hj : j ≤ 32)
    (hg : j ≤ garbage s.source) (last : scanStep .read (readScan s j) = t) (idle : t.phase = .idle)
    (alone : t.agenda = []) : runSteps 39 s = .next t := by
  have issue : step s = .next (issueRead { s with agenda := [] }) :=
    (step_write_legal (i := .read) hp ha rfl).trans (exec_idle hp)
  have discards := runSteps_scan_garbage (i := .read) (d := 0) (m := 37 - j + 1)
    (s := issueRead { s with agenda := [] }) (.inr rfl) rfl rfl (decodeWord_encodeWord .read) rfl (by omega) hg
  have ends : step (readScan s j) = .next (scanStep .read (readScan s j)) :=
    step_scan (s := readScan s j) (i := .read) (.inr rfl) rfl rfl (decodeWord_encodeWord .read)
  have steps : 38 = j + (37 - j + 1) := by omega
  rw [Nat.zero_add] at discards
  rw [last] at ends
  rw [runSteps_succ issue, steps]
  exact discards.trans ((runSteps_succ ends).trans (runSteps_idle idle alone))

section
variable {b : Byte} {q : List Byte} {p : ProtocolKind} (hp : s.phase = .idle) (ha : s.agenda = [.hostWrite 0x00 0x05])
  (hg : garbage s.source ≤ 31) (hq : s.source.drop (garbage s.source) = b :: q) (hm : markerOf b = some p)
include hp ha hg hq hm

/-- A READ that finds its marker and then too few bytes ends with Incomplete (R152, R245). -/
theorem runSteps_read_incomplete (hl : (s.source.drop (garbage s.source)).length < frameLength p) :
    runSteps 39 s = .next (raise .incomplete (readAvail s p)) := by
  have ends := step_avail_incomplete (s := readAvail s p) rfl rfl (decodeWord_encodeWord .read)
    (.inr (.inr ⟨rfl, rfl⟩)) hl
  rw [runSteps_readAvail hp ha hg hq hm, runSteps_succ ends]
  exact runSteps_idle rfl rfl

variable (hd : s.readDraw = none) (hl : frameLength p ≤ (s.source.drop (garbage s.source)).length)
include hd hl

/-- A READ that finds its marker and a whole frame goes on as its CHECK step does. -/
theorem runSteps_read_check :
    runSteps 39 s = runSteps (34 - garbage s.source) (checkStep .read p (readCheck s p)) := by
  have moved := runSteps_avail_answered (s := readAvail s p) (m := 35 - garbage s.source) rfl rfl
    (decodeWord_encodeWord .read) (.inr (.inr ⟨rfl, rfl⟩)) hl (by simp [readAvail, hd])
  rw [← hd] at moved
  have check := step_check (s := readCheck s p) rfl rfl (decodeWord_encodeWord .read) (.inr (.inr ⟨rfl, rfl⟩))
  have steps : 35 - garbage s.source = 34 - garbage s.source + 1 := by omega
  rw [runSteps_readAvail hp ha hg hq hm, moved, steps]
  exact runSteps_succ check

/-- A READ whose CHECK step returns the core to idle has ended there. -/
theorem runSteps_read_rejected (last : checkStep .read p (readCheck s p) = t) (idle : t.phase = .idle)
    (alone : t.agenda = []) : runSteps 39 s = .next t := by
  rw [runSteps_read_check hp ha hg hq hm hd hl, last]
  exact runSteps_idle idle alone

/-- A READ whose CHECK step passes decodes and converts, and the core then waits (R241). -/
theorem runSteps_read_accepted (last : checkStep .read p (readCheck s p) = t) (dec : t.phase = .dec)
    (alone : t.agenda = []) (hc : decodeWord t.cmdl = .ok .read) : runSteps 39 s = .next (convStep (decStep t)) := by
  have steps : 34 - garbage s.source = 32 - garbage s.source + 2 := by omega
  rw [runSteps_read_check hp ha hg hq hm hd hl, last, steps]
  exact runSteps_dec (.inr rfl) dec alone hc

end
end

/-- Settles O45: the SCAN step after the discards ends the command or comes to AVAIL; from there the frame length, the
header and the checksum decide. -/
theorem readRunsToItsEnd : Obligations.ReadRunsToItsEnd := by
  intro s hp ha hd g
  rw [hp]
  refine ⟨?spent, ?dry, ?_⟩
  case spent =>
    intro hg
    have last := scanStep_spent (op := .read) (s := readScan s 32) rfl
    rw [runSteps_read_scan hp ha le_rfl hg last rfl rfl]
    rfl
  case dry =>
    intro hg hl
    have empty : s.source.drop g = [] := List.drop_eq_nil_of_le hl.le
    have last := scanStep_empty (op := .read) (s := readScan s g) (dcnt_ne_budget (by omega)) empty
    rw [runSteps_read_scan hp ha (by omega) le_rfl last rfl rfl, ← empty]
    rfl
  intro b q p hg hq hm
  rw [← hq]
  intro n f found
  refine ⟨?incomplete, ?header, ?sum, ?good⟩
  case incomplete =>
    intro hl
    exact runSteps_read_incomplete hp ha hg hq hm hl
  case header =>
    intro hl hh
    have last := checkStep_badHeader (op := .read) (s := readCheck s p) hh
    exact runSteps_read_rejected hp ha hg hq hm hd hl last rfl rfl
  case sum =>
    intro hl hh hc
    have last := checkStep_badChecksum (op := .read) (s := readCheck s p) hh hc
    exact runSteps_read_rejected hp ha hg hq hm hd hl last rfl rfl
  case good =>
    intro hl hh hc
    have last := checkStep_good (op := .read) (s := readCheck s p) hh hc
    rw [runSteps_read_accepted hp ha hg hq hm hd hl last rfl rfl (decodeWord_encodeWord .read), convStep_decStep]
    rfl

end Sys2Proof.Machine
end

section
/-! PROOFS. The host's port (60_exceptions.md): writes that a busy core ignores, words that are no command, reads, and the
issue of each command. -/

namespace Sys2Proof.Machine

/-! ### Writes to a busy core (R286) -/

theorem hostWrite_busy {s : State} {idx : Byte} {v : Word} (hp : s.phase ≠ .idle) : hostWrite idx v s = .moves s :=
  if_pos (busy_eq_true.2 hp)

/-- Settles O6: the write is taken off the agenda, and the port's guard drops it. -/
theorem writesWhileBusyAreIgnored : Obligations.WritesWhileBusyAreIgnored :=
  fun _ _ _ _ hp ha => step_moves ((nextTurn_cons ha).trans (hostWrite_busy hp))

/-! ### Words that are no command (R268) -/

theorem legalWord_eq_false_iff {w : Byte} : legalWord w = false ↔ ∃ r, decodeWord w = .error r := by
  unfold legalWord
  cases decodeWord w <;> simp

/-- An error raised by an idle core writes ERR and DONE only (R274). -/
theorem raise_of_idle {e : ErrorCause} {s : State} (hp : s.phase = .idle) :
    raise e s = { s with done := true, err := errorCode e } := by
  rw [raise, ← hp]

/-- Settles O7: the word is rejected by the decoder, and an idle core raises ERR_ILLEGAL. -/
theorem illegalWordEndsWithErrIllegal : Obligations.IllegalWordEndsWithErrIllegal := by
  intro s w rest hp ha hl
  obtain ⟨r, hd⟩ := legalWord_eq_false_iff.1 hl
  have raised := step_write_illegal hp ha (by rwa [commandByte_setWidth])
  rwa [raise_of_idle (by exact hp)] at raised

/-! ### Reads (R284) -/

theorem guardedIndex_iff {idx : Byte} :
    guardedIndex idx = true ↔
      (0x02 ≤ idx.toNat ∧ idx.toNat ≤ 0x05) ∨ (0x10 ≤ idx.toNat ∧ idx.toNat ≤ 0x22)
        ∨ (0x40 ≤ idx.toNat ∧ idx.toNat ≤ 0x5F) := by
  simp [guardedIndex, or_assoc]

theorem hostRead_guarded {s : State} {idx : Byte} (hp : s.phase ≠ .idle) (hg : guardedIndex idx = true) :
    hostRead idx s = { s with readData := Config.freeHostRead s.drawCount, drawCount := s.drawCount + 1 } := by
  simp [hostRead, busy_eq_true.2 hp, hg]

theorem hostRead_register {s : State} {idx : Byte} (h : ¬(s.phase ≠ .idle ∧ guardedIndex idx = true)) :
    hostRead idx s = { s with readData := registerFile s idx } := by
  rw [← busy_eq_true, ← Bool.and_eq_true] at h
  exact if_neg h

theorem step_read {s : State} {idx : Byte} {rest : List AgentAction} (ha : s.agenda = .hostRead idx :: rest) :
    step s = .next (hostRead idx { s with agenda := rest }) :=
  step_moves (nextTurn_cons ha)

/-- CMD has no storage (R36), and a reserved index no register (R42). -/
theorem registerFile_zero {s : State} {idx : Byte}
    (h : idx = 0x00 ∨ (0x06 ≤ idx.toNat ∧ idx.toNat ≤ 0x0F) ∨ (0x23 ≤ idx.toNat ∧ idx.toNat ≤ 0x3F)
      ∨ 0x60 ≤ idx.toNat) : registerFile s idx = 0 := by
  rcases h with rfl | h
  · rfl
  · exact registerFile_reserved h

/-- Settles O10: a guarded index, which is neither STATUS nor one that reads 0, returns the free value from a busy core; any
other read returns the register. -/
theorem readsHaveNoSideEffect : Obligations.ReadsHaveNoSideEffect := by
  intro s idx rest ha
  rw [step_read ha]
  by_cases h : s.phase ≠ .idle ∧ guardedIndex idx = true
  · obtain ⟨hp, hg⟩ := h
    refine ⟨_, _, congrArg _ (hostRead_guarded hp hg), ?status, ?zero, ?guarded⟩
    case status =>
      rintro rfl
      exact absurd hg (by decide)
    case zero =>
      rintro (rfl | hz)
      · exact absurd hg (by decide)
      · have := guardedIndex_iff.1 hg
        omega
    case guarded =>
      intro _
      rw [if_neg hp]
      exact ⟨rfl, rfl⟩
  · refine ⟨registerFile s idx, s.drawCount, congrArg _ (hostRead_register h), ?status, ?zero, ?guarded⟩
    case status =>
      rintro rfl
      exact ⟨rfl, rfl⟩
    case zero => exact fun hz => ⟨registerFile_zero hz, rfl⟩
    case guarded =>
      intro hg
      have idle : s.phase = .idle := by_contra fun hp => h ⟨hp, guardedIndex_iff.2 hg⟩
      rw [if_pos idle]

/-! ### The issue of each command (R285) -/

/-- The issue of DECODE with FVALID = 1. -/
theorem issueDecode_validated {s : State} (hv : s.fvalid = true) :
    issueDecode s = { s with cmdl := 0x03, done := false, err := 0, rvalid := false, phase := .dec } :=
  if_pos hv

/-- The issue of DECODE with FVALID = 0 by an idle core is its end (R269). -/
theorem issueDecode_errSeq {s : State} (hp : s.phase = .idle) (hv : s.fvalid = false) :
    issueDecode s = { s with cmdl := 0x03, done := true, err := 14, rvalid := false } := by
  rcases issueDecode_cases s with ⟨validated, -⟩ | ⟨-, e⟩
  · simp [hv] at validated
  · exact e.trans (raise_of_idle hp)

/-- Settles O17: at PHASE = IDLE every command's meaning is its issue; DECODE's has two ends. -/
theorem issueOfEveryCommand : Obligations.IssueOfEveryCommand := by
  refine ⟨fun s hp => ⟨?sync, ?validateP, ?validateC, ?decode, ?errSeq, ?pm25Us, ?pm10Us, ?pm25Cn, ?pm10Cn, ?read⟩,
    illegalWordEndsWithErrIllegal⟩
  case decode => exact fun hv => (exec_idle hp).trans (congrArg _ (issueDecode_validated hv))
  case errSeq => exact fun hv => (exec_idle hp).trans (congrArg _ (issueDecode_errSeq hp hv))
  all_goals exact exec_idle hp

end Sys2Proof.Machine
end

section
/-! PROOFS. Reset (70_reset_and_hazards.md R300 to R303), and the end of every command (R316): a measure that each step of
the core lowers. -/

namespace Sys2Proof.Machine

/-! ### Reset -/

/-- Settles O15: the action taken is the reset input's, and it is the core's registers alone that are written out. -/
theorem resetClearsTheCoreOnly : Obligations.ResetClearsTheCoreOnly :=
  fun _ _ ha => step_moves (nextTurn_cons ha)

/-- Settles O16: an unlisted byte of FRAME reads 0. -/
theorem resetValues : Obligations.ResetValues := by
  refine ⟨rfl, rfl, rfl, rfl, rfl, rfl, rfl, rfl, rfl, rfl, rfl, rfl, rfl, rfl, rfl, ?frame, ?status⟩
  case frame => exact Memory.read_nil
  case status => decide

/-- Settles O48: the state after reset is idle, with an empty frame buffer, no count, no error and scores of 0. -/
theorem resetSatisfiesTheInvariants : Obligations.ResetSatisfiesTheInvariants :=
  ⟨inv_resetCore State.reset, markerKept_of_phase (.inl rfl)⟩

/-! ### The measure (R316) -/

theorem stepsLeft_of_idle {s : State} (hp : s.phase = .idle) : stepsLeft s = 0 := by simp [stepsLeft, hp]

/-- A busy core within its budget has a step to take. -/
theorem stepsLeft_pos {s : State} (hd : s.dcnt.toNat ≤ 32) (hp : s.phase ≠ .idle) : 0 < stepsLeft s := by
  cases hq : s.phase with
  | idle => exact absurd hq hp
  | scan =>
    simp only [stepsLeft, hq]
    omega
  | avail | xfer | check | dec | conv | aqi1 => simp [stepsLeft, hq]

theorem stepsLeft_le (s : State) : stepsLeft s ≤ 38 := by
  unfold stepsLeft
  split <;> omega

/-- A discarded byte counts as one (R136). -/
theorem toNat_dcnt_succ {n : BitVec 6} (h : n.toNat ≤ 32) : (n + 1).toNat = n.toNat + 1 := by
  bv_omega

/-- Every outcome of a step of the core lowers the measure: it ends the command, goes on to a later phase, or discards a
byte and stays in SCAN. -/
theorem CoreStep.stepsLeft_lt {i : Instr} {s t : State} (h : CoreStep i s t) (hd : s.dcnt.toNat ≤ 32)
    (hb : s.phase ≠ .idle) : stepsLeft t < stepsLeft s := by
  have pos := stepsLeft_pos hd hb
  cases h with
  | noStartByte | starved | incomplete | shortRead | badHeader | badChecksum | synced | validated | converted | scored =>
    exact pos
  | discarded hp =>
    simp only [stepsLeft, hp, toNat_dcnt_succ hd]
    omega
  | marked hp =>
    simp only [stepsLeft, hp, goto_phase]
    omega
  | available hp | transferred hp | checked hp => simp [stepsLeft, hp]
  | decoded hp => simp [stepsLeft, hp, decStep_eq]

/-- When the agenda is empty or says so, the turn of a busy machine is the core's. -/
theorem coreStep_of_turn {s t : State} (hb : s.phase ≠ .idle) (ha : s.agenda = [] ∨ ∃ rest, s.agenda = .core :: rest)
    (hst : step s = .next t) :
    ∃ i rest, CoreStep i { s with agenda := rest } t ∧ (s.agenda = [] ∧ rest = [] ∨ s.agenda = .core :: rest) := by
  cases stepBy_of_step hst with
  | core _ _ hr ht => exact ⟨_, _, ht, hr⟩
  | issue hp => exact absurd hp hb
  | illegal hp => exact absurd hp hb
  | operand hp => exact absurd hp hb
  | reset hr => simp [hr] at ha
  | outside ho =>
    obtain ⟨a, e, hn⟩ := ho.resolve_left hb
    simp [e, hn] at ha

/-- The core's turn brings a busy machine nearer to its end, whatever its byte source holds. -/
theorem step_core_stepsLeft_lt {s t : State} (h : Inv s) (hb : s.phase ≠ .idle)
    (ha : s.agenda = [] ∨ ∃ rest, s.agenda = .core :: rest) (hst : step s = .next t) : stepsLeft t < stepsLeft s := by
  obtain ⟨i, rest, ht, -⟩ := coreStep_of_turn hb ha hst
  exact ht.stepsLeft_lt h.dcnt_bounded hb

/-! ### The core alone moving -/

/-- A step of the core leaves the other agents' plans. -/
theorem CoreStep.agenda {i : Instr} {s t : State} (h : CoreStep i s t) : t.agenda = s.agenda := by
  cases h with
  | decoded => rw [decStep_eq, goto_agenda]
  | noStartByte | starved | synced | marked | discarded | available | incomplete | transferred | shortRead | badHeader
  | badChecksum | validated | checked | converted | scored => rfl

/-- A step with nothing on the agenda puts nothing on it. -/
theorem step_agenda_nil {s t : State} (hb : s.phase ≠ .idle) (ha : s.agenda = []) (hst : step s = .next t) :
    t.agenda = [] := by
  obtain ⟨i, rest, ht, hr⟩ := coreStep_of_turn hb (.inl ha) hst
  rw [ht.agenda]
  simpa [ha] using hr

/-- With the core alone moving a machine comes to rest with DONE = 1 within as many steps as the measure says; a core that
is done before that waits. -/
theorem runSteps_ends {k : Nat} {s : State} (h : Inv s) (hone : s.phase ≠ .idle ↔ s.done = false) (ha : s.agenda = [])
    (hk : stepsLeft s ≤ k) : ∃ t, runSteps k s = .next t ∧ t.phase = .idle ∧ t.done = true := by
  induction k generalizing s with
  | zero =>
    have idle : s.phase = .idle := by_contra fun hb => absurd (stepsLeft_pos h.dcnt_bounded hb) (not_lt.2 hk)
    exact ⟨s, rfl, idle, by simpa [idle] using hone⟩
  | succ k ih =>
    by_cases hb : s.phase = .idle
    · exact ⟨s, runSteps_idle hb ha, hb, by simpa [hb] using hone⟩
    · obtain ⟨t, hst⟩ := noStepStops s h (by simp [ha])
      have fewer : stepsLeft t < stepsLeft s := step_core_stepsLeft_lt h hb (.inl ha) hst
      have one : t.phase ≠ .idle ↔ t.done = false := exactlyOneOfBusyAndDone.2 s t h hone (by simp [ha]) hst
      rw [runSteps_succ hst]
      exact ih (everyStepKeepsTheInvariant s t h hst) one (step_agenda_nil hb ha hst) (by omega)

/-- Settles O53: each outcome of a step of the core lowers the measure, so a run of its length comes to the end. -/
theorem everyCommandEnds : Obligations.EveryCommandEnds := by
  refine ⟨fun s t h hb ha hst => step_core_stepsLeft_lt h hb ha hst, stepsLeft_le, fun s h hb ha => ?_⟩
  obtain ⟨not_done, -⟩ := h.busy_not_done hb
  exact runSteps_ends h (iff_of_true hb not_done) ha (stepsLeft_le s)

end Sys2Proof.Machine
end

section
/-! PROOFS. Commands are independent of history (70_reset_and_hazards.md R304): two machines that run the same command over
the same byte source stay alike in what the command has written. One lemma per phase, the last phase first: from that phase
on, both machines run to ends that are alike. -/

namespace Sys2Proof.Machine

/-! ### What two machines that run the same command have in common -/

/-- What agrees at every moment of the command `i`: the byte source, the flags of what `i` is to produce, and what those
flags vouch for. -/
structure Alike (i : Instr) (s t : State) : Prop where
  source : s.source = t.source
  scanned : i = .sync ∨ i = .read → s.pvalid = t.pvalid ∧ s.dcnt = t.dcnt ∧ (s.pvalid = true → s.proto = t.proto)
  validated : i ≠ .sync → s.fvalid = t.fvalid ∧ (s.fvalid = true → s.fproto = t.fproto)
  decoded : i = .read → s.rvalid = t.rvalid ∧ (s.rvalid = true → s.reading = t.reading ∧ s.hasCounts = t.hasCounts)

/-- What each machine needs to go on with the command `i`, the core alone moving: CMDL, the agenda, FRAME. -/
structure Alone (i : Instr) (cmdl : Byte) (agenda : List AgentAction) (frame : Memory) : Prop where
  latched : decodeWord cmdl = .ok i
  alone : agenda = []
  frame_canonical : Memory.wf frame = true

/-- Two machines in the course of the same command over the same byte source, with the same draw. -/
structure InStep (i : Instr) (s t : State) : Prop extends Alike i s t where
  left : Alone i s.cmdl s.agenda s.frame
  right : Alone i t.cmdl t.agenda t.frame
  draw : s.readDraw = t.readDraw

/-- What agrees when the command `i` has ended: FRAME and ACC where its error says that it has written them. -/
structure EndedAlike (i : Instr) (s t : State) : Prop extends Alike i s t where
  err : s.err = t.err
  done_left : s.done = true
  done_right : t.done = true
  frame : i ≠ .sync → s.err = 0 ∨ s.err = 5 ∨ s.err = 6 → s.frame = t.frame
  acc : i ≠ .sync → s.err = 0 ∨ s.err = 6 → s.acc = t.acc

/-- After `k` steps both machines have come to ends of the command `i` that are alike. -/
def RunAlike (i : Instr) (k : Nat) (s t : State) : Prop :=
  ∃ s' t', runSteps k s = .next s' ∧ runSteps k t = .next t' ∧ EndedAlike i s' t'

section
variable {i : Instr} {s t s' t' : State} {k : Nat}

theorem runAlike_step (hs : step s = .next s') (ht : step t = .next t') (h : RunAlike i k s' t') :
    RunAlike i (k + 1) s t := by
  rw [RunAlike, runSteps_succ hs, runSteps_succ ht]
  exact h

/-- An error is an end alike, if FRAME and ACC are where it says that they were written (R274). -/
theorem runAlike_raise {e : ErrorCause} (h : InStep i s t) (frame : e = .badHeader ∨ e = .badChecksum → s.frame = t.frame)
    (acc : e = .badChecksum → s.acc = t.acc) : RunAlike i k (raise e s) (raise e t) := by
  have wrote_frame : errorCode e = 0 ∨ errorCode e = 5 ∨ errorCode e = 6 → e = .badHeader ∨ e = .badChecksum := by
    cases e <;> decide
  have wrote_acc : errorCode e = 0 ∨ errorCode e = 6 → e = .badChecksum := by cases e <;> decide
  exact ⟨_, _, runSteps_idle rfl h.left.alone, runSteps_idle rfl h.right.alone,
    ⟨h.source, h.scanned, h.validated, h.decoded⟩, rfl, rfl, rfl, fun _ he => frame (wrote_frame he),
    fun _ he => acc (wrote_acc he)⟩

/-- A success is an end alike, if FRAME and ACC are or the command writes neither (R275). -/
theorem runAlike_endOk (h : InStep i s t) (frame : i ≠ .sync → s.frame = t.frame) (acc : i ≠ .sync → s.acc = t.acc) :
    RunAlike i k (endOk s) (endOk t) :=
  ⟨_, _, runSteps_idle rfl h.left.alone, runSteps_idle rfl h.right.alone,
    ⟨h.source, h.scanned, h.validated, h.decoded⟩, rfl, rfl, rfl, fun hi _ => frame hi, fun hi _ => acc hi⟩

/-- PHASE is none of what has to agree at every moment. -/
theorem InStep.goto (h : InStep i s t) (p : Phase) : InStep i (goto p s) (goto p t) :=
  ⟨⟨h.source, h.scanned, h.validated, h.decoded⟩, h.left, h.right, h.draw⟩

end

/-! ### From DEC on (R181, R186) -/

/-- The Reading is built from FRAME and FPROTO alone. -/
theorem runAlike_dec {s t : State} {m : Nat} (h : InStep .read s t) (hs : s.phase = .dec) (ht : t.phase = .dec)
    (frame : s.frame = t.frame) (acc : s.acc = t.acc) (fproto : s.fproto = t.fproto) : RunAlike .read (m + 2) s t := by
  refine ⟨_, _, runSteps_dec (.inr rfl) hs h.left.alone h.left.latched,
    runSteps_dec (.inr rfl) ht h.right.alone h.right.latched, ?_⟩
  have reading : readingOf s.fproto s.frame s.reading = readingOf t.fproto t.frame t.reading := by
    rw [fproto, frame, readingOf_congr]
  have counts : decide (s.fproto = .plantowerPM) = decide (t.fproto = .plantowerPM) := by rw [fproto]
  rw [convStep_decStep, convStep_decStep]
  exact ⟨⟨h.source, h.scanned, h.validated, fun _ => ⟨rfl, fun _ => ⟨reading, counts⟩⟩⟩, rfl, rfl, rfl,
    fun _ _ => frame, fun _ _ => acc⟩

/-! ### From AVAIL on, under one protocol -/

theorem eq_read_of_op {i : Instr} (h : i.op = .read) : i = .read := by
  cases i <;> trivial

section
variable {i : Instr} {vp : ProtocolKind} {s t : State} {m : Nat}

/-- CHECK looks at FRAME alone (R157). -/
theorem runAlike_check (h : InStep i s t) (hs : s.phase = .check) (ht : t.phase = .check) (vs : validatesUnder i vp s)
    (vt : validatesUnder i vp t) (frame : s.frame = t.frame) : RunAlike i (m + 3) s t := by
  refine runAlike_step (step_check hs h.left.alone h.left.latched vs) (step_check ht h.right.alone h.right.latched vt) ?_
  have sum : frameSum vp s.frame = frameSum vp t.frame := congrArg _ frame
  cases hh : headerOk vp s.frame with
  | false =>
    rw [checkStep_badHeader hh, checkStep_badHeader (frame ▸ hh)]
    exact runAlike_raise h (fun _ => frame) nofun
  | true =>
    cases hc : checksumOk vp s.frame with
    | false =>
      rw [checkStep_badChecksum hh hc, checkStep_badChecksum (frame ▸ hh) (frame ▸ hc)]
      exact runAlike_raise ⟨⟨h.source, h.scanned, h.validated, h.decoded⟩, h.left, h.right, h.draw⟩ (fun _ => frame)
        fun _ => sum
    | true =>
      have good : InStep i { s with acc := frameSum vp s.frame, fvalid := true, fproto := vp }
          { t with acc := frameSum vp t.frame, fvalid := true, fproto := vp } :=
        ⟨⟨h.source, h.scanned, fun _ => ⟨rfl, fun _ => rfl⟩, h.decoded⟩, h.left, h.right, h.draw⟩
      rw [checkStep_good hh hc, checkStep_good (frame ▸ hh) (frame ▸ hc)]
      rcases op_of_validatesUnder vs with ho | ho
      · rw [if_pos ho, if_pos ho]
        exact runAlike_endOk good (fun _ => frame) fun _ => sum
      · rw [if_neg (by simp [ho]), if_neg (by simp [ho])]
        obtain rfl := eq_read_of_op ho
        exact runAlike_dec (good.goto .dec) rfl rfl frame sum rfl

/-- Nothing of what stood in FRAME before a read-exact stays in it (R153). -/
theorem frameOf_congr {a b : Memory} {q : List Byte} (ha : Memory.wf a = true) (hb : Memory.wf b = true)
    (hl : frameLength vp ≤ q.length) : frameOf a (frameLength vp) q = frameOf b (frameLength vp) q :=
  Memory.eq_of_read (wf_frameOf hl ha) (wf_frameOf hl hb) fun x => by rw [read_frameOf hl ha, read_frameOf hl hb]

/-- XFER answers as the draw says, which is pending for both or for neither (R71, R153). -/
theorem runAlike_xfer (h : InStep i s t) (hs : s.phase = .xfer) (ht : t.phase = .xfer) (vs : validatesUnder i vp s)
    (vt : validatesUnder i vp t) (hl : frameLength vp ≤ s.source.length) : RunAlike i (m + 4) s t := by
  have hl' : frameLength vp ≤ t.source.length := h.source ▸ hl
  have xs := step_xfer hs h.left.alone h.left.latched vs
  have xt := step_xfer ht h.right.alone h.right.latched vt
  have dropped : ∀ n, s.source.drop n = t.source.drop n := fun n => congrArg _ h.source
  by_cases pending : ∃ k, s.readDraw = some k ∧ Config.srcMayFail = true ∧ k < frameLength vp
  · obtain ⟨k, hk, hf, hlt⟩ := pending
    refine runAlike_step (xs.trans (xferStep_short hk hf hlt hl))
      (xt.trans (xferStep_short (h.draw ▸ hk) hf hlt hl')) (runAlike_raise ?_ nofun nofun)
    exact ⟨⟨dropped k, h.scanned, h.validated, h.decoded⟩, h.left, h.right, rfl⟩
  · have answered : ∀ k, s.readDraw = some k → ¬(Config.srcMayFail = true ∧ k < frameLength vp) :=
      fun k hk hn => pending ⟨k, hk, hn⟩
    have filled : frameOf s.frame (frameLength vp) s.source = frameOf t.frame (frameLength vp) t.source := by
      rw [← h.source, frameOf_congr h.left.frame_canonical h.right.frame_canonical hl]
    refine runAlike_step (xs.trans (xferStep_answered answered hl))
      (xt.trans (xferStep_answered (h.draw ▸ answered) hl')) (runAlike_check ?_ rfl rfl vs vt filled)
    exact ⟨⟨dropped _, h.scanned, h.validated, h.decoded⟩,
      ⟨h.left.latched, h.left.alone, wf_frameOf hl h.left.frame_canonical⟩,
      ⟨h.right.latched, h.right.alone, wf_frameOf hl' h.right.frame_canonical⟩, rfl⟩

/-- AVAIL looks at the number of bytes alone (R152). -/
theorem runAlike_avail (h : InStep i s t) (hs : s.phase = .avail) (ht : t.phase = .avail) (vs : validatesUnder i vp s)
    (vt : validatesUnder i vp t) : RunAlike i (m + 5) s t := by
  by_cases hl : frameLength vp ≤ s.source.length
  · exact runAlike_step (step_avail hs h.left.alone h.left.latched vs hl)
      (step_avail ht h.right.alone h.right.latched vt (h.source ▸ hl)) (runAlike_xfer (h.goto .xfer) rfl rfl vs vt hl)
  · exact runAlike_step (step_avail_incomplete hs h.left.alone h.left.latched vs (not_le.1 hl))
      (step_avail_incomplete ht h.right.alone h.right.latched vt (h.source ▸ not_le.1 hl)) (runAlike_raise h nofun nofun)

end

/-! ### From SCAN on (R131) -/

/-- At a marker SYNC has ended, and READ goes on under the marker's protocol. -/
theorem runAlike_marker {i : Instr} (hi : i = .sync ∨ i = .read) {s t : State} {m : Nat} (h : InStep i s t)
    {p : ProtocolKind} :
    RunAlike i (m + 5)
      (if i.op = .sync then endOk { s with proto := p, pvalid := true }
        else goto .avail { s with proto := p, pvalid := true })
      (if i.op = .sync then endOk { t with proto := p, pvalid := true }
        else goto .avail { t with proto := p, pvalid := true }) := by
  obtain ⟨-, dcnt, -⟩ := h.scanned hi
  have found : InStep i { s with proto := p, pvalid := true } { t with proto := p, pvalid := true } :=
    ⟨⟨h.source, fun _ => ⟨rfl, dcnt, fun _ => rfl⟩, h.validated, h.decoded⟩, h.left, h.right, h.draw⟩
  rcases hi with rfl | rfl
  · exact runAlike_endOk found (absurd rfl) (absurd rfl)
  · exact runAlike_avail (found.goto .avail) rfl rfl (.inr (.inr ⟨rfl, rfl⟩)) (.inr (.inr ⟨rfl, rfl⟩))

/-- SCAN looks at DCNT and at the head of the byte source alone; with `n` discards left in the budget it takes at most
`n + 1` steps. -/
theorem runAlike_scan {i : Instr} (hi : i = .sync ∨ i = .read) {s t : State} {d n m : Nat} (h : InStep i s t)
    (hs : s.phase = .scan) (ht : t.phase = .scan) (hd : s.dcnt = BitVec.ofNat 6 d) (budget : d + n = 32) :
    RunAlike i (n + (m + 6)) s t := by
  induction n generalizing s t d with
  | zero =>
    obtain ⟨-, dcnt, -⟩ := h.scanned hi
    obtain rfl : d = 32 := budget
    rw [Nat.zero_add]
    refine runAlike_step (step_scan hi hs h.left.alone h.left.latched) (step_scan hi ht h.right.alone h.right.latched) ?_
    rw [scanStep_spent hd, scanStep_spent (dcnt ▸ hd)]
    exact runAlike_raise h nofun nofun
  | succ n ih =>
    obtain ⟨pvalid, dcnt, proto⟩ := h.scanned hi
    have unspent : s.dcnt ≠ 32 := hd ▸ dcnt_ne_budget (by omega)
    rw [Nat.succ_add]
    refine runAlike_step (step_scan hi hs h.left.alone h.left.latched) (step_scan hi ht h.right.alone h.right.latched) ?_
    cases hq : s.source with
    | nil =>
      rw [scanStep_empty unspent hq, scanStep_empty (dcnt ▸ unspent) (h.source ▸ hq)]
      exact runAlike_raise h nofun nofun
    | cons b q =>
      cases hm : markerOf b with
      | some p =>
        rw [scanStep_marker unspent hq hm, scanStep_marker (dcnt ▸ unspent) (h.source ▸ hq) hm]
        exact runAlike_marker hi h (m := n + m + 1)
      | none =>
        rw [scanStep_other unspent hq hm, scanStep_other (dcnt ▸ unspent) (h.source ▸ hq) hm]
        have discarded : InStep i { s with source := q, dcnt := s.dcnt + 1 } { t with source := q, dcnt := t.dcnt + 1 } :=
          ⟨⟨rfl, fun _ => ⟨pvalid, congrArg (· + 1) dcnt, proto⟩, h.validated, h.decoded⟩, h.left, h.right, h.draw⟩
        exact ih discarded hs ht (d := d + 1) (by simp [hd, BitVec.ofNat_add]) (by omega)

/-! ### The whole command -/

/-- The word of a command written to CMD of an idle core issues it (60_exceptions.md R285). -/
theorem step_write_encodeWord {s : State} (hp : s.phase = .idle) (i : Instr) (rest : List AgentAction) :
    step { s with agenda := .hostWrite 0x00 ((encodeWord i).setWidth 32) :: rest }
      = .next (issued i { s with agenda := rest }) :=
  (step_write_legal (s := { s with agenda := .hostWrite 0x00 ((encodeWord i).setWidth 32) :: rest }) hp rfl
    (by rw [commandByte_setWidth, decodeWord_encodeWord])).trans (exec_idle hp)

section
variable {i : Instr} {s t : State}

/-- The issue clears the flags of what the command is to produce, and so puts two machines in step, whatever they did
before (R285). -/
theorem inStep_issued (hi : i = .sync ∨ i = .validateP ∨ i = .validateC ∨ i = .read) (hs : s.agenda = [])
    (ht : t.agenda = []) (ws : Memory.wf s.frame = true) (wt : Memory.wf t.frame = true) (source : s.source = t.source)
    (draw : s.readDraw = t.readDraw) : InStep i (issued i s) (issued i t) := by
  have left : Alone i (encodeWord i) s.agenda s.frame := ⟨decodeWord_encodeWord i, hs, ws⟩
  have right : Alone i (encodeWord i) t.agenda t.frame := ⟨decodeWord_encodeWord i, ht, wt⟩
  rcases hi with rfl | rfl | rfl | rfl
  case inl => exact ⟨⟨source, fun _ => ⟨rfl, rfl, nofun⟩, absurd rfl, nofun⟩, left, right, draw⟩
  case inr.inr.inr =>
    exact ⟨⟨source, fun _ => ⟨rfl, rfl, nofun⟩, fun _ => ⟨rfl, nofun⟩, fun _ => ⟨rfl, nofun⟩⟩, left, right, draw⟩
  all_goals exact ⟨⟨source, by simp, fun _ => ⟨rfl, nofun⟩, nofun⟩, left, right, draw⟩

/-- A command that is issued goes on to SCAN or to AVAIL, and from there to an end within 38 steps. -/
theorem runAlike_issued (hi : i = .sync ∨ i = .validateP ∨ i = .validateC ∨ i = .read)
    (h : InStep i (issued i s) (issued i t)) : RunAlike i 38 (issued i s) (issued i t) := by
  rcases hi with rfl | rfl | rfl | rfl
  · exact runAlike_scan (n := 32) (m := 0) (d := 0) (.inl rfl) h rfl rfl rfl rfl
  · exact runAlike_avail (m := 33) h rfl rfl (.inl ⟨rfl, rfl⟩) (.inl ⟨rfl, rfl⟩)
  · exact runAlike_avail (m := 33) h rfl rfl (.inr (.inl ⟨rfl, rfl⟩)) (.inr (.inl ⟨rfl, rfl⟩))
  · exact runAlike_scan (n := 32) (m := 0) (d := 0) (.inr rfl) h rfl rfl rfl rfl

end

/-- Settles O47: the issue puts the two machines in step, and each phase keeps them so up to the end. -/
theorem commandsAreIndependentOfHistory : Obligations.CommandsAreIndependentOfHistory := by
  intro i s t hi hs ht ws wt source draw
  have alike : RunAlike i 38 (issued i { s with agenda := [] }) (issued i { t with agenda := [] }) :=
    runAlike_issued hi (inStep_issued hi rfl rfl ws wt source draw)
  obtain ⟨s', t', rs, rt, h⟩ := runAlike_step (step_write_encodeWord hs i []) (step_write_encodeWord ht i []) alike
  refine ⟨s', t', rs, rt, h.err, h.source, h.done_left, h.done_right, h.scanned, fun not_sync => ?_, h.decoded⟩
  obtain ⟨fvalid, fproto⟩ := h.validated not_sync
  exact ⟨fvalid, fproto, h.frame not_sync, h.acc not_sync⟩

end Sys2Proof.Machine
end
